-- ==== Sys2Proof/Word.lean ====
section
/-! DEFINITION. The machine's bit-vector types (spec/00_scope.md R3, R7): a 16-bit word, an 8-bit address (of code and of
data, and the width of the program counter) and an 8-bit byte of a word. -/

namespace Sys2Proof

/-- A register, memory or instruction word: 16 bits (R3, R9, R35, R53). -/
abbrev Word := BitVec 16

/-- One byte of a word: 8 bits; the width of the data fields `D` and `V` (R7, R55). -/
abbrev Byte := BitVec 8

/-- A word address and the program counter: 8 bits (R3, R16, R35). -/
abbrev Addr := BitVec 8

end Sys2Proof
end

