-- ==== Sys2Proof/Config.lean ====
section
/-! DEFINITION. The implementation parameters of spec/00_scope.md R4, as plain enumerations, gathered in one record. A
machine's record is fixed at launch and no instruction changes it; statements hold for every value of it. -/

namespace Sys2Proof

/-- `MEM_ORG` (R5): one array for code and data, or two. The spec leaves it OPEN (D3). -/
inductive MemOrg where
  /-- Separate code and data arrays (R37). -/
  | harvard
  /-- One array for both (R38). -/
  | princeton
  deriving DecidableEq, Repr

/-- `SUB_CARRY` (R29, D5): what SUB and CMP write to C. -/
inductive SubCarry where
  /-- The carry out of `a + ~b + 1`: 1 exactly when `a >= b` unsigned. The default. -/
  | notBorrow
  /-- 1 exactly when `a < b` unsigned. -/
  | borrow
  /-- Table 1 applied to the sign bits as its columns are printed. -/
  | table1Literal
  deriving DecidableEq, Repr

/-- `INC_IMM_EXT` (R56, D6): how INC's 8-bit value becomes 16 bits. -/
inductive IncImmExt where
  /-- Zero-extended, 0 to 255. The default. -/
  | zero
  /-- Sign-extended, -128 to 127. -/
  | sign
  deriving DecidableEq, Repr

/-- `SHR_ZN` (R85, D7): what SHR does to Z and N. -/
inductive ShrZN where
  /-- Z and N keep their values. The default. -/
  | unchanged
  /-- Z and N describe the shifted value. -/
  | fromResult
  deriving DecidableEq, Repr

/-- `LD_IMM_OTHER_BYTE` (R74, D8): the byte an immediate load does not write. -/
inductive LdImmOtherByte where
  /-- It keeps its value. The default. -/
  | preserve
  /-- It becomes 0x00. -/
  | zero
  deriving DecidableEq, Repr

/-- `RESERVED_BITS` (R63, D9): a 1 in a bit that the format prints as 0. -/
inductive ReservedBits where
  /-- The word has no meaning: the model-level fault `ReservedEncoding` (R96). The default. -/
  | fault
  /-- The bit has no influence. -/
  | ignore
  deriving DecidableEq, Repr

/-- `RESET_UNSPEC` (R34, D10): what an item that reset leaves unspecified holds. -/
inductive ResetUnspec where
  /-- An arbitrary value, fixed at launch. The default. -/
  | anyValue
  /-- It is marked unwritten, and reading it before it is written is the model-level fault `UnwrittenRead` (R97). -/
  | readFaults
  deriving DecidableEq, Repr

/-- The parameters of R4. `DATA_WORDS` has the single value 256 (R6) and is `Config.dataWords`. -/
structure Config where
  /-- `MEM_ORG` -/
  memOrg : MemOrg
  /-- `SUB_CARRY` -/
  subCarry : SubCarry
  /-- `INC_IMM_EXT` -/
  incImmExt : IncImmExt
  /-- `SHR_ZN` -/
  shrZN : ShrZN
  /-- `LD_IMM_OTHER_BYTE` -/
  ldImmOtherByte : LdImmOtherByte
  /-- `RESERVED_BITS` -/
  reservedBits : ReservedBits
  /-- `RESET_UNSPEC` -/
  resetUnspec : ResetUnspec
  deriving DecidableEq, Repr

/-- The defaults of R4. `MEM_ORG` has no default in the spec. DESIGN CHOICE: `harvard` (log 1; unsafe for a claim that
starts from `State.reset` and is meant for a Princeton machine; safe for the statements, which hold for every record). -/
def Config.default : Config where
  memOrg := .harvard
  subCarry := .notBorrow
  incImmExt := .zero
  shrZN := .unchanged
  ldImmOtherByte := .preserve
  reservedBits := .fault
  resetUnspec := .anyValue

/-- Words of code memory: 256 (R3, R36). -/
def Config.codeWords : Nat := 256

/-- `DATA_WORDS`: 256, its only value (R4, R6; the 512-word remark is given no meaning, D2). -/
def Config.dataWords : Nat := 256

/-- What a byte of storage that nothing lists reads as. DESIGN CHOICE: 0x00 (log 4; unsafe, since the spec gives no
contents: R34, R52). -/
def Config.blankByte : Byte := 0x00#8

end Sys2Proof
end

