-- ==== Sys2Proof/Syntax.lean ====
section
/-! DEFINITION. The instructions as syntax: one constructor for each row of spec/opcode_table.json (R57), with the operand
fields of spec/30_encoding.md R55. -/

namespace Sys2Proof

/-- A data register, chosen by the 1-bit field R: RA (0) or RB (1) (R9, R15). -/
inductive Reg where
  | ra
  | rb
  deriving DecidableEq, Repr

/-- A byte of a register, chosen by LD's field B: low, bits 7:0 (0), or high, bits 15:8 (1) (R7, R55). -/
inductive ByteSel where
  | low
  | high
  deriving DecidableEq, Repr

/-- A status bit (R24). -/
inductive Flag where
  | z
  | n
  | c
  deriving DecidableEq, Repr

/-- The 15 instructions, LD in its two forms: 16 constructors, as the 16 rows of the opcode table. -/
inductive Instr where
  /-- LD, direct form (R73): register R, data address D. -/
  | ldDirect (r : Reg) (d : Addr)
  /-- LD, immediate form (R74): register R, byte B, value D. -/
  | ldImm (r : Reg) (b : ByteSel) (d : Byte)
  /-- ST (R75): register R, data address A. -/
  | st (r : Reg) (a : Addr)
  /-- INC (R76): register R, value V. -/
  | inc (r : Reg) (v : Byte)
  /-- BR and its named forms (R77): X, the select bits of Z, N and C, and the target A. -/
  | br (x z n c : Bool) (a : Addr)
  /-- ADD (R80). -/
  | add
  /-- SUB (R81). -/
  | sub
  /-- OR (R82). -/
  | or
  /-- AND (R83). -/
  | and
  /-- XOR (R84). -/
  | xor
  /-- SHR (R85). -/
  | shr
  /-- MOV (R87). -/
  | mov
  /-- EXCH (R88). -/
  | exch
  /-- CMP (R89). -/
  | cmp
  /-- SET (R90): the select bits of Z, N and C. -/
  | set (z n c : Bool)
  /-- CLR (R91): the select bits of Z, N and C. -/
  | clr (z n c : Bool)
  deriving DecidableEq, Repr

end Sys2Proof
end

