-- ==== Sys2Proof/WellFormed.lean ====
section
/-! DEFINITION. Which instruction words are well formed: the opcode table of the spec (spec/opcode_table.json,
spec/30_encoding.md R59, R63) as rows of a mask and a pattern, independent of the decoder. An `Instr` needs no check of its
own: its fields are exactly as wide as the encoding's, so every term of the type is an instruction of R59. -/

namespace Sys2Proof

/-- A row of the opcode table: a word `w` is the row's exactly when `w &&& mask = pattern`; `maskIgnore` replaces `mask`
under `RESERVED_BITS = ignore`. -/
structure OpcodeRow where
  mnemonic : String
  pattern : Word
  mask : Word
  maskIgnore : Word
  deriving DecidableEq, Repr

/-- The 16 rows, in the table's order. -/
def opcodeRows : List OpcodeRow :=
  [ ⟨"LD", 0x0000, 0xF700, 0xF400⟩,
    ⟨"LD", 0x0400, 0xF500, 0xF400⟩,
    ⟨"ST", 0x1000, 0xF700, 0xF000⟩,
    ⟨"INC", 0x2000, 0xF700, 0xF000⟩,
    ⟨"BR", 0x3000, 0xF000, 0xF000⟩,
    ⟨"ADD", 0x4000, 0xFFFF, 0xF000⟩,
    ⟨"SUB", 0x5000, 0xFFFF, 0xF000⟩,
    ⟨"OR", 0x6000, 0xFFFF, 0xF000⟩,
    ⟨"AND", 0x7000, 0xFFFF, 0xF000⟩,
    ⟨"XOR", 0x8000, 0xFFFF, 0xF000⟩,
    ⟨"SHR", 0x9000, 0xFFFF, 0xF000⟩,
    ⟨"MOV", 0xA000, 0xFFFF, 0xF000⟩,
    ⟨"EXCH", 0xB000, 0xFFFF, 0xF000⟩,
    ⟨"CMP", 0xC000, 0xFFFF, 0xF000⟩,
    ⟨"SET", 0xD000, 0xF8FF, 0xF000⟩,
    ⟨"CLR", 0xE000, 0xF8FF, 0xF000⟩ ]

/-- The mask a row is tested with under a value of `RESERVED_BITS` (R63). -/
def OpcodeRow.maskFor (rb : ReservedBits) (row : OpcodeRow) : Word :=
  match rb with
  | .fault => row.mask
  | .ignore => row.maskIgnore

/-- The word is one of the row's. -/
def OpcodeRow.accepts (rb : ReservedBits) (row : OpcodeRow) (w : Word) : Bool :=
  w &&& row.maskFor rb == row.pattern

/-- The word is one of the table's (under `fault`, one of the 6681 words of R59). -/
def wellFormedWord (rb : ReservedBits) (w : Word) : Bool :=
  opcodeRows.any (fun row => row.accepts rb w)

end Sys2Proof
end

