-- ==== Sys2Proof/Decode.lean ====
section
/-! DEFINITION. The decoder of spec/30_encoding.md R66, total on every 16-bit word and refusing by name, and after it the
encoder, written from the format rows of R54. -/

namespace Sys2Proof

/-- What decoding one word answers. -/
inductive DecodeResult where
  /-- The word is this instruction. -/
  | ok (i : Instr)
  /-- Opcode 1111: no instruction (R61). -/
  | illegalOpcode
  /-- A 1 in a fixed-zero bit of the format, under `RESERVED_BITS = fault` (R63, R64). -/
  | reservedEncoding
  deriving DecidableEq, Repr

/-- `ir[15:12]`, the opcode (R53). -/
def opcodeOf (ir : Word) : BitVec 4 := ir.extractLsb' 12 4

/-- `ir[7:0]`: the field D, A or V (R55, R56). -/
def lowField (ir : Word) : BitVec 8 := ir.extractLsb' 0 8

/-- The register that the field R, `ir[11]`, selects (R15). -/
def regField (ir : Word) : Reg := if ir.getLsbD 11 then .rb else .ra

/-- The byte that LD's field B, `ir[9]`, selects (R55). -/
def byteField (ir : Word) : ByteSel := if ir.getLsbD 9 then .high else .low

/-- The fixed-zero bits of the word's format (R55, R63, R64, R66); none for the unassigned opcode, which has no format. -/
def zeroMask (ir : Word) : Word :=
  match opcodeOf ir with
  | 0x0#4 => if ir.getLsbD 10 then 0x0100#16 else 0x0300#16
  | 0x1#4 => 0x0700#16
  | 0x2#4 => 0x0700#16
  | 0x3#4 => 0x0000#16
  | 0xD#4 => 0x08FF#16
  | 0xE#4 => 0x08FF#16
  | 0xF#4 => 0x0000#16
  | _ => 0x0FFF#16

/-- The dispatch of R66: the instruction that the opcode, and for LD the bit L, selects, reading only the fields that R55
gives its format. -/
def instrOf (ir : Word) : DecodeResult :=
  match opcodeOf ir with
  | 0x0#4 => .ok (if ir.getLsbD 10 then .ldImm (regField ir) (byteField ir) (lowField ir)
      else .ldDirect (regField ir) (lowField ir))
  | 0x1#4 => .ok (.st (regField ir) (lowField ir))
  | 0x2#4 => .ok (.inc (regField ir) (lowField ir))
  | 0x3#4 => .ok (.br (ir.getLsbD 11) (ir.getLsbD 10) (ir.getLsbD 9) (ir.getLsbD 8) (lowField ir))
  | 0x4#4 => .ok .add
  | 0x5#4 => .ok .sub
  | 0x6#4 => .ok .or
  | 0x7#4 => .ok .and
  | 0x8#4 => .ok .xor
  | 0x9#4 => .ok .shr
  | 0xA#4 => .ok .mov
  | 0xB#4 => .ok .exch
  | 0xC#4 => .ok .cmp
  | 0xD#4 => .ok (.set (ir.getLsbD 10) (ir.getLsbD 9) (ir.getLsbD 8))
  | 0xE#4 => .ok (.clr (ir.getLsbD 10) (ir.getLsbD 9) (ir.getLsbD 8))
  | _ => .illegalOpcode

/-- Decode one word (R66): the opcode first (R100), then the fixed-zero bits, then the dispatch. -/
def decodeWord (rb : ReservedBits) (ir : Word) : DecodeResult :=
  if opcodeOf ir = 0xF#4 then .illegalOpcode
  else if rb = .fault ∧ ir &&& zeroMask ir ≠ 0x0000#16 then .reservedEncoding
  else instrOf ir

/-- The bit of the field R (R15). -/
def regBit : Reg → BitVec 1
  | .ra => 0#1
  | .rb => 1#1

/-- The bit of LD's field B (R55). -/
def byteBit : ByteSel → BitVec 1
  | .low => 0#1
  | .high => 1#1

/-- The select bits of BR, SET and CLR, in the order Z, N, C of bits 10, 9, 8 (R55). -/
def selectBits (z n c : Bool) : BitVec 3 := BitVec.ofBool z ++ BitVec.ofBool n ++ BitVec.ofBool c

/-- The word of an instruction, bit 15 first, as the format rows of R54 show it, every fixed-zero bit 0 (R59). -/
def encode : Instr → Word
  | .ldDirect r d => 0x0#4 ++ regBit r ++ 0b000#3 ++ d
  | .ldImm r b d => 0x0#4 ++ regBit r ++ 1#1 ++ byteBit b ++ 0#1 ++ d
  | .st r a => 0x1#4 ++ regBit r ++ 0b000#3 ++ a
  | .inc r v => 0x2#4 ++ regBit r ++ 0b000#3 ++ v
  | .br x z n c a => 0x3#4 ++ BitVec.ofBool x ++ selectBits z n c ++ a
  | .add => 0x4#4 ++ 0x000#12
  | .sub => 0x5#4 ++ 0x000#12
  | .or => 0x6#4 ++ 0x000#12
  | .and => 0x7#4 ++ 0x000#12
  | .xor => 0x8#4 ++ 0x000#12
  | .shr => 0x9#4 ++ 0x000#12
  | .mov => 0xA#4 ++ 0x000#12
  | .exch => 0xB#4 ++ 0x000#12
  | .cmp => 0xC#4 ++ 0x000#12
  | .set z n c => 0xD#4 ++ 0#1 ++ selectBits z n c ++ 0x00#8
  | .clr z n c => 0xE#4 ++ 0#1 ++ selectBits z n c ++ 0x00#8

/-- The word whose bits are the low `nbits` bits of `w`, every higher bit 0; instructions are one word (R53). -/
def tableWord (nbits w : Nat) : Word := BitVec.ofNat 16 (w % 2 ^ nbits)

/-- The instruction of a decoding, none where the word is refused. -/
def DecodeResult.toOption : DecodeResult → Option Instr
  | .ok i => some i
  | .illegalOpcode => none
  | .reservedEncoding => none

/-- The instruction read from an instruction whose bits are `w`, numbered as the opcode table numbers them, under the
default `RESERVED_BITS = fault`. -/
def decodeTableWord (nbits w : Nat) : Option Instr :=
  (decodeWord Config.default.reservedBits (tableWord nbits w)).toOption

end Sys2Proof
end

