-- ==== Sys2Proof/Machine/Memory.lean ====
section
/-! DEFINITION. Storage as plain data: a list of (address, byte) pairs in one canonical form, and the word access built from
it. A 16-bit word is the smallest unit the machine addresses (spec/20_memory.md R35); the model keeps it as two bytes, the
low byte at the even address. DESIGN CHOICE (log 5; safe: no program can tell, R44). -/

namespace Sys2Proof.Machine

/-- Storage: the listed cells; a byte that no cell lists reads as `Config.blankByte`. -/
abbrev Memory := List Host.Cell

/-- The byte at an address. -/
def Memory.readByte : Memory → Nat → Byte
  | [], _ => Config.blankByte
  | (k, v) :: m, p => if p = k then v else Memory.readByte m p

/-- The storage without the cells of one address. -/
def Memory.erase (m : Memory) (p : Nat) : Memory := m.filter (fun cell => cell.1 != p)

/-- The storage with one cell put before the first cell of a higher address. -/
def Memory.insert : Memory → Nat → Byte → Memory
  | [], p, v => [(p, v)]
  | (k, w) :: m, p, v => if p < k then (p, v) :: (k, w) :: m else (k, w) :: Memory.insert m p v

/-- Write one byte. Writing what an unlisted address reads as removes the cell. -/
def Memory.writeByte (m : Memory) (p : Nat) (v : Byte) : Memory :=
  if v = Config.blankByte then m.erase p else (m.erase p).insert p v

/-- The low byte of a word, bits 7:0 (R7). -/
def lowByte (w : Word) : Byte := w.extractLsb' 0 8

/-- The high byte of a word, bits 15:8 (R7). -/
def highByte (w : Word) : Byte := w.extractLsb' 8 8

/-- The word of a high and a low byte, `{hi, lo}`. -/
def joinBytes (hi lo : Byte) : Word := hi ++ lo

/-- The byte address of a stored word's low byte; its high byte is at the next address. -/
def lowByteAt (key : Nat) : Nat := 2 * key

/-- The byte address of a stored word's high byte. -/
def highByteAt (key : Nat) : Nat := 2 * key + 1

/-- Read the whole stored word with index `key`. -/
def Memory.readWord (m : Memory) (key : Nat) : Word :=
  joinBytes (m.readByte (highByteAt key)) (m.readByte (lowByteAt key))

/-- Write the whole stored word with index `key`. -/
def Memory.writeWord (m : Memory) (key : Nat) (w : Word) : Memory :=
  (m.writeByte (lowByteAt key) (lowByte w)).writeByte (highByteAt key) (highByte w)

/-- The canonical form: addresses strictly rising, and no cell equal to what an unlisted address reads as. -/
def Memory.wf (m : Memory) : Bool :=
  decide (m.Pairwise (fun a b => a.1 < b.1)) && m.all (fun cell => cell.2 != Config.blankByte)

/-- Every listed address is below a bound. -/
def Memory.below (m : Memory) (bound : Nat) : Bool := m.all (fun cell => decide (cell.1 < bound))

end Sys2Proof.Machine
end

