-- ==== Sys2Proof/Machine/State.lean ====
section
/-! DEFINITION. The state of the S-Machine as plain data (spec/10_state.md, "the whole architectural state besides memory";
spec/20_memory.md; the marks of spec/60_exceptions.md R97; the parameters of spec/00_scope.md R4), the reasons a step can
stop, and the state after reset. -/

namespace Sys2Proof.Machine

/-- One thing that carries its own "unwritten" mark under `RESET_UNSPEC = read_faults` (R97): a byte of RA or RB, a status
bit, or a memory word, by its index in storage. -/
inductive Mark where
  | byte (r : Reg) (b : ByteSel)
  | flag (f : Flag)
  | word (key : Nat)
  deriving DecidableEq, Repr

/-- One thing an instruction or the fetch reads, as `UnwrittenRead` names it (R93, R97). -/
inductive ReadItem where
  /-- RA or RB. -/
  | reg (r : Reg)
  /-- Z, N or C. -/
  | flag (f : Flag)
  /-- The code word at an address. -/
  | code (a : Addr)
  /-- The data word at an address. -/
  | data (a : Addr)
  deriving DecidableEq, Repr

/-- The state between two instruction cycles. -/
structure State where
  /-- Data register RA (R9, R10). -/
  ra : Word
  /-- Data register RB (R9, R11). -/
  rb : Word
  /-- The program counter: the address of the next instruction to be executed (R16, R17). -/
  pc : Addr
  /-- Status bit Z (R24, R25). -/
  z : Bool
  /-- Status bit N (R24, R26). -/
  n : Bool
  /-- Status bit C (R24, R27). -/
  c : Bool
  /-- Code and data memory (R35 to R38): `State.codeKey` and `State.dataKey` say where a word of each stands. -/
  mem : Memory
  /-- The marks of R97: what is still unwritten. Empty, and never consulted, under `RESET_UNSPEC = any_value`. -/
  unwritten : List Mark
  /-- The parameters of R4. The model's own field: fixed at launch, changed by no step (log 1). -/
  cfg : Config
  deriving DecidableEq, Repr

/-- The model-level faults of R93: "There are three, and no others". The step that raises one has no successor state (R94).
All three are safe: the model stops where the hardware does something unknown. -/
inductive Fault where
  /-- Raised by the fetch phase's decoding when the opcode is 1111 (R95), under every parameter: the word and its address.
  Safe. -/
  | illegalOpcode (ir : Word) (address : Addr)
  /-- Raised by the fetch phase's decoding under `RESERVED_BITS = fault` when a fixed-zero bit of the format is 1, or LD has
  L = 0 and B = 1 (R96): the word and its address. Safe. -/
  | reservedEncoding (ir : Word) (address : Addr)
  /-- Raised by the fetch, or by a meaning, under `RESET_UNSPEC = read_faults` when it reads an item that nothing has written
  and the launch image did not give (R97): the item. Never raised under the default. Safe. -/
  | unwrittenRead (item : ReadItem)
  deriving DecidableEq, Repr

/-- The reasons a step is refused. No meaning of this model refuses: every instruction of the table has its effect. -/
inductive Refusal where
  /-- Raised only by an arm of `exec` for an instruction that has no meaning yet; no arm does. Safe. -/
  | notModelled (mnemonic : String)
  deriving DecidableEq, Repr

/-- The machine right after reset: `PC = 0x00`, the boot address (R34, R105). The spec gives no other reset value: RA and RB
are 0x0000 and Z, N, C are 0 by DESIGN CHOICE (log 2, log 3; unsafe), memory lists nothing (log 4) and the parameters are
the defaults (log 1). `State.launch` is the spec's own reset, for every value that it leaves open. -/
def State.reset : State where
  ra := 0x0000#16
  rb := 0x0000#16
  pc := 0x00#8
  z := false
  n := false
  c := false
  mem := []
  unwritten := []
  cfg := Config.default

end Sys2Proof.Machine
end

