-- ==== Sys2Proof/Machine/Ops.lean ====
section
/-! DEFINITION. The named operations over registers, status bits, memory and marks; the guard that raises `UnwrittenRead`;
the fetch phase. The machine takes no exception (spec/60_exceptions.md R92, R101): there is no entry and no return to
model, and a model-level fault ends the run. -/

namespace Sys2Proof.Machine

/-! ### Where a word stands in storage -/

/-- The index in storage of the code word at an address (R37, R38): code stands first. -/
def State.codeKey (_s : State) (a : Addr) : Nat := a.toNat

/-- The index in storage of the data word at an address: after the code array under `harvard` (R37), the same word as the
code word of that address under `princeton` (R38). -/
def State.dataKey (s : State) (a : Addr) : Nat :=
  match s.cfg.memOrg with
  | .harvard => Config.codeWords + a.toNat
  | .princeton => a.toNat

/-- How many words storage has: 256 + 256, or 256 shared (R36, R37, R38). -/
def storageWords : MemOrg → Nat
  | .harvard => Config.codeWords + Config.dataWords
  | .princeton => Config.codeWords

/-! ### The marks of R97 -/

/-- The marks left when some have been removed, in their order. -/
def dropMarks (marks written : List Mark) : List Mark := marks.filter (fun m => !written.contains m)

/-- The state after the things named have been written. -/
def State.markWritten (s : State) (written : List Mark) : State :=
  { s with unwritten := dropMarks s.unwritten written }

/-- The thing is marked unwritten; under `any_value` nothing is (R97). -/
def State.marked (s : State) (m : Mark) : Bool :=
  decide (s.cfg.resetUnspec = .readFaults) && s.unwritten.contains m

/-- The marks a read of an item needs gone: both bytes of a register, one status bit, one memory word (R97). -/
def State.marksOf (s : State) : ReadItem → List Mark
  | .reg r => [.byte r .low, .byte r .high]
  | .flag f => [.flag f]
  | .code a => [.word (s.codeKey a)]
  | .data a => [.word (s.dataKey a)]

/-- Reading the item now is `UnwrittenRead` (R97). -/
def State.isUnwritten (s : State) (item : ReadItem) : Bool := (s.marksOf item).any s.marked

/-- An execute phase that reads `items` in state `s`, in that order, and leaves state `t`: the first item that is unwritten
is reported (R97, R100; the order within one instruction is its pseudocode's, DEDUCED, log 8, safe). -/
def State.reading (s : State) (items : List ReadItem) (t : State) : Host.Outcome State Fault Refusal :=
  match items.find? s.isUnwritten with
  | some item => .fault (.unwrittenRead item)
  | none => .next t

/-! ### Registers, status bits and the program counter -/

/-- `x[R]`, a register's value (R15). -/
def State.reg (s : State) : Reg → Word
  | .ra => s.ra
  | .rb => s.rb

/-- A register with a new value, its marks as they were. -/
def State.putReg (s : State) (r : Reg) (v : Word) : State :=
  match r with
  | .ra => { s with ra := v }
  | .rb => { s with rb := v }

/-- `x[R] <- v`: all 16 bits written. -/
def State.setReg (s : State) (r : Reg) (v : Word) : State :=
  (s.putReg r v).markWritten [.byte r .low, .byte r .high]

/-- A status bit's value. -/
def State.flag (s : State) : Flag → Bool
  | .z => s.z
  | .n => s.n
  | .c => s.c

/-- `Z <- b`, `N <- b` or `C <- b`. -/
def State.setFlag (s : State) (f : Flag) (b : Bool) : State :=
  match f with
  | .z => { s with z := b }.markWritten [.flag .z]
  | .n => { s with n := b }.markWritten [.flag .n]
  | .c => { s with c := b }.markWritten [.flag .c]

/-- `if sel then f <- b` (R90, R91). -/
def State.setFlagIf (s : State) (sel : Bool) (f : Flag) (b : Bool) : State :=
  if sel then s.setFlag f b else s

/-- All three status bits written. -/
def State.setFlags (s : State) (z n c : Bool) : State :=
  ((s.setFlag .z z).setFlag .n n).setFlag .c c

/-- `PC <- target`. -/
def State.setPc (s : State) (target : Addr) : State := { s with pc := target }

/-- The fetch phase's `PC <- (PC + 1)[7:0]` (R20, R21). -/
def State.advance (s : State) : State := s.setPc (s.pc + 1)

/-! ### Memory -/

/-- `CodeRead(addr)` (R41). -/
def State.codeRead (s : State) (a : Addr) : Word := s.mem.readWord (s.codeKey a)

/-- `MemRead(addr, 1)` (R42). -/
def State.memRead (s : State) (a : Addr) : Word := s.mem.readWord (s.dataKey a)

/-- `MemWrite(addr, 1, v)` (R43). -/
def State.memWrite (s : State) (a : Addr) (v : Word) : State :=
  { s with mem := s.mem.writeWord (s.dataKey a) v }.markWritten [.word (s.dataKey a)]

/-! ### The fetch phase and decoding -/

/-- What the fetch and decode phases answer. -/
inductive Fetched where
  /-- The instruction, and the state its execute phase starts from. -/
  | run (i : Instr) (s : State)
  /-- A model-level fault. -/
  | stop (f : Fault)
  deriving DecidableEq, Repr

/-- Fetch and decode (R23): read the code word at PC, advance PC, decode. An unwritten code word is reported before either
decoding fault (R100); a decoding fault carries the word and its address (R93). -/
def fetch (s : State) : Fetched :=
  if s.isUnwritten (.code s.pc) then .stop (.unwrittenRead (.code s.pc))
  else
    match decodeWord s.cfg.reservedBits (s.codeRead s.pc) with
    | .ok i => .run i s.advance
    | .illegalOpcode => .stop (.illegalOpcode (s.codeRead s.pc) s.pc)
    | .reservedEncoding => .stop (.reservedEncoding (s.codeRead s.pc) s.pc)

/-- `s` with a word placed where the next fetch reads, as part of the launch image (R52; log 6). -/
def State.placeCode (s : State) (w : Word) : State :=
  { s with mem := s.mem.writeWord (s.codeKey s.pc) w }.markWritten [.word (s.codeKey s.pc)]

end Sys2Proof.Machine
end

