-- ==== Sys2Proof/Machine/Operands.lean ====
section
/-! DEFINITION. The operand forms that need computing (spec/30_encoding.md R56; spec/40_ld_st.md R74): INC's value, LD's
immediate byte, and what a branch reads. Addresses are used as they stand (R40). -/

namespace Sys2Proof.Machine

/-- INC's operand `v`: the 8-bit value extended as `INC_IMM_EXT` says (R56, R76). -/
def incOperand : IncImmExt → Byte → Word
  | .zero, v => v.zeroExtend 16
  | .sign, v => v.signExtend 16

/-- The byte of the old value that an immediate load keeps (`keep_hi`, `keep_lo` of R74). -/
def keptByte : LdImmOtherByte → Byte → Byte
  | .preserve, old => old
  | .zero, _ => 0x00#8

/-- The register's value after an immediate load of `d` into byte `b` (R74). -/
def loadByte (other : LdImmOtherByte) (b : ByteSel) (old : Word) (d : Byte) : Word :=
  match b with
  | .low => joinBytes (keptByte other (highByte old)) d
  | .high => joinBytes d (keptByte other (lowByte old))

/-- What an immediate load writes: under `preserve` only its byte (R97); under `zero` the whole register (R74; DEDUCED from
its pseudocode, log 9, safe). -/
def loadByteMarks (other : LdImmOtherByte) (r : Reg) (b : ByteSel) : List Mark :=
  match other with
  | .preserve => [.byte r b]
  | .zero => [.byte r .low, .byte r .high]

/-- The status bits that select bits name, in the order Z, N, C. -/
def selectedFlags (z n c : Bool) : List Flag :=
  (if z then [.z] else []) ++ (if n then [.n] else []) ++ (if c then [.c] else [])

/-- BR is unconditional: its four condition bits are all clear or all set (R69, R77). -/
def branchAlways (x z n c : Bool) : Bool := (!x && !z && !n && !c) || (x && z && n && c)

/-- What a BR reads: the selected status bits, none if it is unconditional or never taken (R97). -/
def branchReads (x z n c : Bool) : List ReadItem :=
  if branchAlways x z n c then [] else (selectedFlags z n c).map .flag

end Sys2Proof.Machine
end

