-- ==== Sys2Proof/Machine/Flags.lean ====
section
/-! DEFINITION. Every status-bit computation (spec/10_state.md R25 to R30): zero, negative, the carry of Table 1, the carry
of a subtraction, and the branch condition (spec/42_br.md R77). -/

namespace Sys2Proof.Machine

/-- The sign bit of a word, `v[15]` (R7). -/
def signBit (v : Word) : Bool := v.getLsbD 15

/-- `Z <- (r = 0)` (R25). -/
def zeroOf (r : Word) : Bool := decide (r = 0x0000#16)

/-- `N <- r[15]` (R26). -/
def negativeOf (r : Word) : Bool := signBit r

/-- Table 1, "Carry bit combinations after arithmetic operation", row by row (R27): the sign bits of the first operand, the
second operand and the result. -/
def table1 : Bool → Bool → Bool → Bool
  | false, false, false => false
  | false, false, true => false
  | false, true, true => false
  | false, true, false => true
  | true, false, true => false
  | true, false, false => true
  | true, true, false => true
  | true, true, true => true

/-- The carry of an addition of `a` and `b` with result `r` (R27, R30). -/
def addCarry (a b r : Word) : Bool := table1 (signBit a) (signBit b) (signBit r)

/-- `SubCarry(a, b, r)` (R29, R81). -/
def subCarryOf : SubCarry → Word → Word → Word → Bool
  | .notBorrow, a, b, r => table1 (signBit a) (signBit (~~~b)) (signBit r)
  | .borrow, a, b, r => !table1 (signBit a) (signBit (~~~b)) (signBit r)
  | .table1Literal, a, b, r => table1 (signBit a) (signBit b) (signBit r)

/-- Z and N from a result, C as given: what an arithmetic or logic instruction writes (R30, R31). -/
def State.setResultFlags (s : State) (r : Word) (c : Bool) : State :=
  s.setFlags (zeroOf r) (negativeOf r) c

/-- Z and N after SHR, per `SHR_ZN` (R85). Under `unchanged` their marks stay too (DEDUCED, log 9, safe). -/
def State.setShrZN (s : State) (r : Word) : State :=
  match s.cfg.shrZN with
  | .unchanged => s
  | .fromResult => (s.setFlag .z (zeroOf r)).setFlag .n false

/-- A selected status bit meets the branch condition: it is 1 where X = 0, it is 0 where X = 1 (R77). -/
def flagMeets (x b : Bool) : Bool := if x then !b else b

/-- The branch is taken (R77, as 90_conflicts.md C7 and C8 resolve the source's pseudocode). -/
def State.branchTaken (s : State) (x z n c : Bool) : Bool :=
  branchAlways x z n c || (z && flagMeets x s.z) || (n && flagMeets x s.n) || (c && flagMeets x s.c)

end Sys2Proof.Machine
end

