-- ==== Sys2Proof/Machine/Alu.lean ====
section
/-! DEFINITION. ADD, SUB, OR, AND, XOR and SHR (spec/43_alu.md R80 to R85). All write RA, none writes RB or memory. -/

namespace Sys2Proof.Machine

/-- ADD: `RA <- RA + RB` modulo 2^16, C from Table 1 (R80). -/
def execAdd (s : State) : Host.Outcome State Fault Refusal :=
  s.reading [.reg .ra, .reg .rb]
    ((s.setReg .ra (s.ra + s.rb)).setResultFlags (s.ra + s.rb) (addCarry s.ra s.rb (s.ra + s.rb)))

/-- SUB: `RA <- RA - RB` modulo 2^16, C as `SUB_CARRY` says (R81). -/
def execSub (s : State) : Host.Outcome State Fault Refusal :=
  s.reading [.reg .ra, .reg .rb]
    ((s.setReg .ra (s.ra - s.rb)).setResultFlags (s.ra - s.rb)
      (subCarryOf s.cfg.subCarry s.ra s.rb (s.ra - s.rb)))

/-- A bitwise operation with result `r` in RA; C is cleared (R82, R83, R84). -/
def State.logicResult (s : State) (r : Word) : State := (s.setReg .ra r).setResultFlags r false

/-- OR (R82). -/
def execOr (s : State) : Host.Outcome State Fault Refusal :=
  s.reading [.reg .ra, .reg .rb] (s.logicResult (s.ra ||| s.rb))

/-- AND (R83). -/
def execAnd (s : State) : Host.Outcome State Fault Refusal :=
  s.reading [.reg .ra, .reg .rb] (s.logicResult (s.ra &&& s.rb))

/-- XOR (R84). -/
def execXor (s : State) : Host.Outcome State Fault Refusal :=
  s.reading [.reg .ra, .reg .rb] (s.logicResult (s.ra ^^^ s.rb))

/-- SHR: a logical shift right by one; C receives the bit shifted out (R85). -/
def execShr (s : State) : Host.Outcome State Fault Refusal :=
  s.reading [.reg .ra]
    (((s.setReg .ra (s.ra >>> 1)).setFlag .c (s.ra.getLsbD 0)).setShrZN (s.ra >>> 1))

end Sys2Proof.Machine
end

