-- ==== Sys2Proof/Machine/Branch.lean ====
section
/-! DEFINITION. BR, the only control transfer, with its seven named forms (spec/42_br.md R77, R78). -/

namespace Sys2Proof.Machine

/-- BR: `if take then PC <- A`; a branch not taken leaves PC as the fetch phase left it (R77, R19). -/
def execBr (x z n c : Bool) (a : Addr) (s : State) : Host.Outcome State Fault Refusal :=
  s.reading (branchReads x z n c) (if s.branchTaken x z n c then s.setPc a else s)

end Sys2Proof.Machine
end

