-- ==== Sys2Proof/Machine/Increment.lean ====
section
/-! DEFINITION. INC (spec/41_inc.md R76). -/

namespace Sys2Proof.Machine

/-- INC: `x[R] <- x[R] + v`; Z, N and C describe the new value of that register (R76, R30). -/
def execInc (r : Reg) (v : Byte) (s : State) : Host.Outcome State Fault Refusal :=
  s.reading [.reg r]
    ((s.setReg r (s.reg r + incOperand s.cfg.incImmExt v)).setResultFlags
      (s.reg r + incOperand s.cfg.incImmExt v)
      (addCarry (s.reg r) (incOperand s.cfg.incImmExt v) (s.reg r + incOperand s.cfg.incImmExt v)))

end Sys2Proof.Machine
end

