-- ==== Sys2Proof/Machine/LoadStore.lean ====
section
/-! DEFINITION. LD in its two forms and ST (spec/40_ld_st.md R73 to R75). None writes a status bit (D12). Each meaning is the
execute phase alone: PC has already been advanced by the fetch phase (R20). -/

namespace Sys2Proof.Machine

/-- LD, direct: `x[R] <- MemRead(D, 1)` (R73). -/
def execLdDirect (r : Reg) (d : Addr) (s : State) : Host.Outcome State Fault Refusal :=
  s.reading [.data d] (s.setReg r (s.memRead d))

/-- LD, immediate: one byte of `x[R]` becomes D, the other as `LD_IMM_OTHER_BYTE` says (R74). It marks as
written only what it writes, and raises no `UnwrittenRead`: under `preserve` that is R97's own exemption; under `zero` R97 is
silent where R13 and R74 have the load read the old register, and that it completes there is a DESIGN CHOICE (log 17, unsafe). -/
def execLdImm (r : Reg) (b : ByteSel) (d : Byte) (s : State) : Host.Outcome State Fault Refusal :=
  s.reading []
    ((s.putReg r (loadByte s.cfg.ldImmOtherByte b (s.reg r) d)).markWritten
      (loadByteMarks s.cfg.ldImmOtherByte r b))

/-- ST: `MemWrite(A, 1, x[R])` (R75). -/
def execSt (r : Reg) (a : Addr) (s : State) : Host.Outcome State Fault Refusal :=
  s.reading [.reg r] (s.memWrite a (s.reg r))

end Sys2Proof.Machine
end

