-- ==== Sys2Proof/Machine/Move.lean ====
section
/-! DEFINITION. MOV and EXCH (spec/44_mov_exch.md R87, R88). Neither writes a status bit. -/

namespace Sys2Proof.Machine

/-- MOV: `RB <- RA` (R87). -/
def execMov (s : State) : Host.Outcome State Fault Refusal :=
  s.reading [.reg .ra] (s.setReg .rb s.ra)

/-- EXCH: `(RA, RB) <- (RB, RA)` (R88). -/
def execExch (s : State) : Host.Outcome State Fault Refusal :=
  s.reading [.reg .ra, .reg .rb] ((s.setReg .ra s.rb).setReg .rb s.ra)

end Sys2Proof.Machine
end

