-- ==== Sys2Proof/Machine/Status.lean ====
section
/-! DEFINITION. CMP, SET and CLR, whose only effect is on the status bits (spec/45_cmp_set_clr.md R89 to R91). -/

namespace Sys2Proof.Machine

/-- CMP: the status bits of `RA - RB`, which is discarded (R89). -/
def execCmp (s : State) : Host.Outcome State Fault Refusal :=
  s.reading [.reg .ra, .reg .rb]
    (s.setResultFlags (s.ra - s.rb) (subCarryOf s.cfg.subCarry s.ra s.rb (s.ra - s.rb)))

/-- The selected status bits set to `b`, the others unchanged. -/
def State.writeSelected (s : State) (z n c b : Bool) : State :=
  ((s.setFlagIf z .z b).setFlagIf n .n b).setFlagIf c .c b

/-- SET: each selected status bit becomes 1 (R90). -/
def execSet (z n c : Bool) (s : State) : Host.Outcome State Fault Refusal :=
  s.reading [] (s.writeSelected z n c true)

/-- CLR: each selected status bit becomes 0 (R91). -/
def execClr (z n c : Bool) (s : State) : Host.Outcome State Fault Refusal :=
  s.reading [] (s.writeSelected z n c false)

end Sys2Proof.Machine
end

