-- ==== Sys2Proof/Machine/Dispatch.lean ====
section
/-! DEFINITION. The execute phase of spec/10_state.md R23: one arm per instruction, each one call of its meaning. The state
given is the one the fetch phase leaves (PC already advanced, R20). -/

namespace Sys2Proof.Machine

def exec (i : Instr) (s : State) : Host.Outcome State Fault Refusal :=
  match i with
  | .ldDirect r d => Sys2Proof.Machine.execLdDirect r d s
  | .ldImm r b d => Sys2Proof.Machine.execLdImm r b d s
  | .st r a => Sys2Proof.Machine.execSt r a s
  | .inc r v => Sys2Proof.Machine.execInc r v s
  | .br x z n c a => Sys2Proof.Machine.execBr x z n c a s
  | .add => Sys2Proof.Machine.execAdd s
  | .sub => Sys2Proof.Machine.execSub s
  | .or => Sys2Proof.Machine.execOr s
  | .and => Sys2Proof.Machine.execAnd s
  | .xor => Sys2Proof.Machine.execXor s
  | .shr => Sys2Proof.Machine.execShr s
  | .mov => Sys2Proof.Machine.execMov s
  | .exch => Sys2Proof.Machine.execExch s
  | .cmp => Sys2Proof.Machine.execCmp s
  | .set z n c => Sys2Proof.Machine.execSet z n c s
  | .clr z n c => Sys2Proof.Machine.execClr z n c s

end Sys2Proof.Machine
end

