-- ==== Sys2Proof/Machine/Step.lean ====
section
/-! DEFINITION. One step of the machine: one whole instruction cycle (spec/10_state.md R23). -/

namespace Sys2Proof.Machine

/-- Fetch, decode, execute. -/
def step (s : State) : Host.Outcome State Fault Refusal :=
  match Sys2Proof.Machine.fetch s with
  | .run i t => Sys2Proof.Machine.exec i t
  | .stop f => .fault f

/-- `s` with the instruction whose bits are `w` stored where the next step fetches (log 6). -/
def State.withFetchWord (s : State) (nbits w : Nat) : State :=
  s.placeCode (Sys2Proof.tableWord nbits w)

end Sys2Proof.Machine
end

