-- ==== Sys2Proof/Machine/Launch.lean ====
section
/-! DEFINITION. Reset as the spec has it (spec/20_memory.md R52, spec/10_state.md R34, spec/70_reset_and_hazards.md R105):
the launch image and every value that reset leaves unspecified are inputs. -/

namespace Sys2Proof.Machine

/-- The launch image (R52): the word it gives each address it names. Under `princeton` there is one array and only `code` is
used; `data` is the data array of `harvard`. -/
structure LaunchImage where
  code : Addr → Option Word
  data : Addr → Option Word

/-- Every word address, in rising order. -/
def allAddrs : List Addr := (List.range 256).map (BitVec.ofNat 8)

/-- The storage words that the image names, by their index in storage. -/
def LaunchImage.word (img : LaunchImage) (org : MemOrg) (key : Nat) : Option Word :=
  if key < Config.codeWords then img.code (BitVec.ofNat 8 key)
  else
    match org with
    | .harvard => img.data (BitVec.ofNat 8 (key - Config.codeWords))
    | .princeton => none

/-- Storage with one word of the image in place. -/
def LaunchImage.place (img : LaunchImage) (org : MemOrg) (m : Memory) (key : Nat) : Memory :=
  match img.word org key with
  | some w => m.writeWord key w
  | none => m

/-- Storage holding the image. -/
def LaunchImage.memory (img : LaunchImage) (org : MemOrg) : Memory :=
  (List.range (storageWords org)).foldl (img.place org) []

/-- Everything that can carry a mark, once each, in one fixed order (R97). -/
def allMarks (org : MemOrg) : List Mark :=
  [.byte .ra .low, .byte .ra .high, .byte .rb .low, .byte .rb .high, .flag .z, .flag .n, .flag .c]
    ++ (List.range (storageWords org)).map .word

/-- The image names the thing; it names memory words only (R97). -/
def LaunchImage.names (img : LaunchImage) (org : MemOrg) : Mark → Bool
  | .word key => (img.word org key).isSome
  | .byte _ _ => false
  | .flag _ => false

/-- The marks at launch: under `read_faults` all but the words the image names, under `any_value` none (R34, R97). -/
def LaunchImage.marks (img : LaunchImage) (cfg : Config) : List Mark :=
  match cfg.resetUnspec with
  | .anyValue => []
  | .readFaults => (allMarks cfg.memOrg).filter (fun m => !img.names cfg.memOrg m)

/-- The state right after reset, for every parameter setting, launch image and unspecified value. -/
def State.launch (cfg : Config) (img : LaunchImage) (ra rb : Word) (z n c : Bool) : State where
  ra := ra
  rb := rb
  pc := 0x00#8
  z := z
  n := n
  c := c
  mem := img.memory cfg.memOrg
  unwritten := img.marks cfg
  cfg := cfg

/-- The image that names no word. -/
def LaunchImage.empty : LaunchImage where
  code := fun _ => none
  data := fun _ => none

end Sys2Proof.Machine
end

