-- ==== Sys2Proof/Safety.lean ====
section
/-! DEFINITION. What claims are stated in: the outcomes of a step, what may be read, well-formed states, runs, and the end of
a run (spec/70_reset_and_hazards.md R110). -/

namespace Sys2Proof.Machine

/-- Nothing in the list is unwritten: reading all of it raises no `UnwrittenRead` (R97). -/
abbrev State.Readable (s : State) (items : List ReadItem) : Prop :=
  ∀ item ∈ items, s.isUnwritten item = false

/-- What an instruction's execute phase reads, in order, as the accesses that `UnwrittenRead` watches (R13, R31, R39, R97). An
immediate load, SET and CLR read nothing in this sense (an immediate load under `zero` by the model's DESIGN CHOICE, log 17,
unsafe). -/
def instrReads : Instr → List ReadItem
  | .ldDirect _ d => [.data d]
  | .ldImm _ _ _ => []
  | .st r _ => [.reg r]
  | .inc r _ => [.reg r]
  | .br x z n c _ => branchReads x z n c
  | .add => [.reg .ra, .reg .rb]
  | .sub => [.reg .ra, .reg .rb]
  | .or => [.reg .ra, .reg .rb]
  | .and => [.reg .ra, .reg .rb]
  | .xor => [.reg .ra, .reg .rb]
  | .shr => [.reg .ra]
  | .mov => [.reg .ra]
  | .exch => [.reg .ra, .reg .rb]
  | .cmp => [.reg .ra, .reg .rb]
  | .set _ _ _ => []
  | .clr _ _ _ => []

/-- What an instruction writes, as the marks it removes in a next state (R13, R31, R97). -/
def State.instrWrites (s : State) : Instr → List Mark
  | .ldDirect r _ => [.byte r .low, .byte r .high]
  | .ldImm r b _ => loadByteMarks s.cfg.ldImmOtherByte r b
  | .st _ a => [.word (s.dataKey a)]
  | .inc r _ => [.byte r .low, .byte r .high, .flag .z, .flag .n, .flag .c]
  | .br _ _ _ _ _ => []
  | .add => [.byte .ra .low, .byte .ra .high, .flag .z, .flag .n, .flag .c]
  | .sub => [.byte .ra .low, .byte .ra .high, .flag .z, .flag .n, .flag .c]
  | .or => [.byte .ra .low, .byte .ra .high, .flag .z, .flag .n, .flag .c]
  | .and => [.byte .ra .low, .byte .ra .high, .flag .z, .flag .n, .flag .c]
  | .xor => [.byte .ra .low, .byte .ra .high, .flag .z, .flag .n, .flag .c]
  | .shr => match s.cfg.shrZN with
    | .unchanged => [.byte .ra .low, .byte .ra .high, .flag .c]
    | .fromResult => [.byte .ra .low, .byte .ra .high, .flag .z, .flag .n, .flag .c]
  | .mov => [.byte .rb .low, .byte .rb .high]
  | .exch => [.byte .ra .low, .byte .ra .high, .byte .rb .low, .byte .rb .high]
  | .cmp => [.flag .z, .flag .n, .flag .c]
  | .set z n c => (selectedFlags z n c).map .flag
  | .clr z n c => (selectedFlags z n c).map .flag

/-- One byte of a register. -/
def State.byteOf (s : State) (r : Reg) : ByteSel → Byte
  | .low => lowByte (s.reg r)
  | .high => highByte (s.reg r)

/-- A machine `s` under `read_faults` and a machine `u` under `any_value`, alike in the other parameters, agree: the same PC,
and the same value in everything that `s` does not have marked unwritten. -/
structure Agree (s u : State) : Prop where
  readFaults : s.cfg.resetUnspec = .readFaults
  cfg : u.cfg = { s.cfg with resetUnspec := .anyValue }
  pc : u.pc = s.pc
  bytes : ∀ r b, Mark.byte r b ∉ s.unwritten → u.byteOf r b = s.byteOf r b
  flags : ∀ f, Mark.flag f ∉ s.unwritten → u.flag f = s.flag f
  words : ∀ key, Mark.word key ∉ s.unwritten → u.mem.readWord key = s.mem.readWord key

/-- The state invariant: storage in canonical form and within the spec's words, the marks in the one fixed order, each at
most once, and none under `any_value`. -/
def State.Inv (s : State) : Prop :=
  s.mem.wf = true ∧ s.mem.below (2 * storageWords s.cfg.memOrg) = true ∧
    s.unwritten.Sublist (allMarks s.cfg.memOrg) ∧
    (s.cfg.resetUnspec = .anyValue → s.unwritten = [])

/-- `t` is reached from `s` by some number of steps. -/
inductive Reaches (s : State) : State → Prop where
  | refl : Reaches s s
  | tail {t u : State} (h : Reaches s t) (hstep : step t = .next u) : Reaches s u

/-- The instruction the next fetch reads, if that word decodes. -/
def State.nextInstr (s : State) : Option Instr :=
  (decodeWord s.cfg.reservedBits (s.codeRead s.pc)).toOption

/-- The instruction is an unconditional BR to `a` (R69, R110). -/
def isUnconditionalTo (a : Addr) (i : Instr) : Bool :=
  decide (i = .br false false false false a) || decide (i = .br true true true true a)

/-- The end of a run (R110): the word at PC is an unconditional BR whose target is PC. -/
def State.selfBranch (s : State) : Bool := s.nextInstr.any (isUnconditionalTo s.pc)

/-- The state at a model-level fault of the step from `s` (R94): the state before the execute phase, with PC already
incremented by the fetch. An outcome carries the reason alone (log 11). -/
def State.atFault (s : State) : State := s.advance

/-- A run is safe from a state when no state it reaches stops with a model-level fault (R94). -/
def SafeFrom (s : State) : Prop := ∀ t, Reaches s t → ∃ u, step t = .next u

end Sys2Proof.Machine
end

