-- ==== Sys2Proof/Certificates/Slice0/Obligations.lean ====
section
/-! DEFINITION. The statements of the model, from the numbered rules of spec/. "The premise `Readable`" is the spec's own
(60_exceptions.md R97): it always holds under the default `RESET_UNSPEC = any_value`. Every statement about an instruction
is about its execute phase, from the state the fetch phase leaves (`StepRunsDecoded`); `unwritten := t.unwritten` in a
frame leaves the marks of R97 to `MarksAfterExecute`. -/

open Sys2Proof Sys2Proof.Machine

/-! ### Encoding and decoding -/

/-- Decoding the word of an instruction gives the instruction back, every operand at every value, under both values of
`RESERVED_BITS` (30_encoding.md R54, R55). -/
def Obligations.DecodeEncode : Prop :=
  ∀ (rb : ReservedBits) (i : Instr), decodeWord rb (encode i) = .ok i

/-- Under `RESERVED_BITS = fault` a word decodes to an instruction exactly when it is that instruction's word. The refusal of
every other word is the spec's decision D9, D11 and D22. -/
def Obligations.DecodeOnlyEncodings : Prop :=
  ∀ (w : Word) (i : Instr), decodeWord .fault w = .ok i ↔ w = encode i

/-- The decoder accepts exactly the words of the opcode table's rows, under both values of `RESERVED_BITS` (the masks are the
spec's decision D9 and D22). -/
def Obligations.DecoderAcceptsTable : Prop :=
  ∀ (rb : ReservedBits) (w : Word), (∃ i, decodeWord rb w = .ok i) ↔ wellFormedWord rb w = true

/-- Under `RESERVED_BITS = ignore` a word decodes as if its fixed-zero bits were 0, and every word whose opcode is assigned
decodes (the spec's decision D9, "executes as if those bits were 0"). -/
def Obligations.IgnoreDropsReservedBits : Prop :=
  ∀ w : Word,
    decodeWord .ignore w = decodeWord .fault (w &&& ~~~zeroMask w) ∧
      (opcodeOf w ≠ 0xF#4 → ∃ i, decodeWord .ignore w = .ok i)

/-- Words written out from the format rows of R54 decode to the instructions they stand for. -/
def Obligations.SampleWordsDecode : Prop :=
  decodeWord .fault 0b0000100010000001#16 = .ok (.ldDirect .rb 0x81#8) ∧
  decodeWord .fault 0b0000011000010010#16 = .ok (.ldImm .ra .high 0x12#8) ∧
  decodeWord .fault 0b0001100000010000#16 = .ok (.st .rb 0x10#8) ∧
  decodeWord .fault 0b0010100011111111#16 = .ok (.inc .rb 0xFF#8) ∧
  decodeWord .fault 0b0011110000100000#16 = .ok (.br true true false false 0x20#8) ∧
  decodeWord .fault 0b0101000000000000#16 = .ok .sub ∧
  decodeWord .fault 0b1011000000000000#16 = .ok .exch ∧
  decodeWord .fault 0b1101010100000000#16 = .ok (.set true false true) ∧
  decodeWord .fault 0b1110001000000000#16 = .ok (.clr false true false)

/-! ### The step, the program counter and the model-level faults -/

/-- A step runs the decoded instruction: when the code word at PC is readable and decodes, the step is the execute phase of
that instruction from the state whose PC the fetch has advanced by 1, modulo 256. -/
def Obligations.StepRunsDecoded : Prop :=
  ∀ (s : State) (i : Instr), s.isUnwritten (.code s.pc) = false →
    decodeWord s.cfg.reservedBits (s.codeRead s.pc) = .ok i → step s = exec i { s with pc := s.pc + 1 }

/-- R21: the fetch increments PC modulo 2^8, so at 0xFF it wraps to 0x00; the instruction there is executed normally, and
nothing else marks the wrap. -/
def Obligations.FetchWrapsAtEnd : Prop :=
  ∀ (s : State) (i : Instr), s.isUnwritten (.code s.pc) = false →
    decodeWord s.cfg.reservedBits (s.codeRead s.pc) = .ok i →
    step s = exec i { s with pc := BitVec.ofNat 8 ((s.pc.toNat + 1) % 2 ^ 8) } ∧
    (s.pc = 0xFF#8 → step s = exec i { s with pc := 0x00#8 })

/-- After a step PC is the address of the instruction plus 1, modulo 256, unless the instruction is a BR that is taken, and
then it is the BR's address field. (An inference the spec marks as its own: "[derived: from rule R20 and 42_br.md rule R77]".) -/
def Obligations.PcAfterStep : Prop :=
  ∀ (s t : State) (i : Instr), step s = .next t →
    decodeWord s.cfg.reservedBits (s.codeRead s.pc) = .ok i →
    (∀ x z n c a, i = .br x z n c a → t.pc = if s.branchTaken x z n c then a else s.pc + 1) ∧
    ((∀ x z n c a, i ≠ .br x z n c a) → t.pc = s.pc + 1)

/-- `IllegalOpcode` is what a step raises exactly when the fetched word has opcode 1111, whatever the parameters, with the
word and its address (the spec's decision D11 and D14). -/
def Obligations.IllegalOpcodeExactly : Prop :=
  ∀ s : State, s.isUnwritten (.code s.pc) = false →
    (step s = .fault (.illegalOpcode (s.codeRead s.pc) s.pc) ↔ (s.codeRead s.pc).extractLsb' 12 4 = 0xF#4)

/-- `ReservedEncoding` is what a step raises exactly under `RESERVED_BITS = fault`, for an assigned opcode, when a bit of the
mask that R66 lists for it is 1, with the word and its address (the spec's decision D9, D14 and D22). -/
def Obligations.ReservedEncodingExactly : Prop :=
  ∀ s : State, s.isUnwritten (.code s.pc) = false →
    (step s = .fault (.reservedEncoding (s.codeRead s.pc) s.pc) ↔
      s.cfg.reservedBits = .fault ∧ (s.codeRead s.pc).extractLsb' 12 4 ≠ 0xF#4 ∧
        s.codeRead s.pc &&&
          (if (s.codeRead s.pc).extractLsb' 12 4 = 0x0#4 then
            (if (s.codeRead s.pc).getLsbD 10 then 0x0100#16 else 0x0300#16)
          else if (s.codeRead s.pc).extractLsb' 12 4 ≤ 0x2#4 then 0x0700#16
          else if (s.codeRead s.pc).extractLsb' 12 4 = 0x3#4 then 0x0000#16
          else if (s.codeRead s.pc).extractLsb' 12 4 ≤ 0xC#4 then 0x0FFF#16
          else 0x08FF#16) ≠ 0x0000#16)

/-- A decoding fault names the fetched word and its address, which is one before the PC of the state at the fault, modulo 256;
in that state nothing but PC differs from the state before the step (the spec's decision D14). -/
def Obligations.FaultNamesFetchedWord : Prop :=
  ∀ (s : State) (f : Fault) (ir : Word) (a : Addr), step s = .fault f →
    f = .illegalOpcode ir a ∨ f = .reservedEncoding ir a →
    ir = s.codeRead s.pc ∧ a = s.pc ∧ a = s.atFault.pc - 1 ∧ s.atFault = { s with pc := s.atFault.pc }

/-- An unwritten code word at PC is reported before either decoding fault, whatever the word holds (the spec's decision D21). -/
def Obligations.UnwrittenFetchFirst : Prop :=
  ∀ s : State, s.isUnwritten (.code s.pc) = true → step s = .fault (.unwrittenRead (.code s.pc))

/-- No step is refused, and under the default `RESET_UNSPEC = any_value` a step faults exactly when the word at PC is none of
the opcode table's: no access, no arithmetic and no branch faults (an inference the spec marks as its own, from D9, D10,
D11 and "[derived: from the rules named]" of R98). -/
def Obligations.StepFaultsOnlyOnBadWords : Prop :=
  ∀ s : State, (∀ r, step s ≠ .refused r) ∧
    (s.cfg.resetUnspec = .anyValue →
      ((∃ f, step s = .fault f) ↔ wellFormedWord s.cfg.reservedBits (s.codeRead s.pc) = false))

/-- An execute phase answers a next state exactly when what its instruction reads is readable; else it is `UnwrittenRead` of
something it reads that is unwritten. Under `any_value` it always completes (the spec's decision D10; R97). That an
immediate load under `zero` reads nothing is the model's choice (log 17). -/
def Obligations.ExecCompletesExactly : Prop :=
  ∀ (i : Instr) (s : State),
    ((∃ t, exec i s = .next t) ↔ s.Readable (instrReads i)) ∧
    (s.cfg.resetUnspec = .anyValue → ∃ t, exec i s = .next t) ∧
    (∀ f, exec i s = .fault f →
      ∃ item, item ∈ instrReads i ∧ s.isUnwritten item = true ∧ f = .unwrittenRead item)

/-- What an execute phase writes loses its mark, and nothing else changes a mark (the spec's decision D10; R97; for an immediate
load under `zero` and for SHR under `unchanged` the model's reading, log 9). -/
def Obligations.MarksAfterExecute : Prop :=
  ∀ (i : Instr) (s t : State), exec i s = .next t →
    ∀ m, m ∈ t.unwritten ↔ m ∈ s.unwritten ∧ m ∉ s.instrWrites i

/-! ### Loads and stores -/

/-- LD direct: all 16 bits of the selected register become the data word; the other register, memory, PC and (the spec's
decision D12) the status bits are unchanged. -/
def Obligations.LdDirectLoadsWord : Prop :=
  ∀ (r : Reg) (d : Addr) (s : State), s.Readable [.data d] →
    ∃ t, exec (.ldDirect r d) s = .next t ∧ t.reg r = s.memRead d ∧
      (∀ q, q ≠ r → t.reg q = s.reg q) ∧
      t = { s with ra := t.ra, rb := t.rb, unwritten := t.unwritten }

/-- LD immediate: the value goes into the byte that B selects, the other byte keeps its value or becomes 0x00 as
`LD_IMM_OTHER_BYTE` says (the spec's decision D8); all else is unchanged (status bits: decision D12). It always completes:
for an unwritten register under `zero` and `read_faults` that is the model's choice (log 17). -/
def Obligations.LdImmLoadsByte : Prop :=
  ∀ (r : Reg) (b : ByteSel) (d : Byte) (s : State),
    ∃ t, exec (.ldImm r b d) s = .next t ∧
      t.reg r = (if b = .low
        then (if s.cfg.ldImmOtherByte = .preserve then s.reg r &&& 0xFF00#16 else 0x0000#16) ||| d.zeroExtend 16
        else d.zeroExtend 16 <<< 8 ||| (if s.cfg.ldImmOtherByte = .preserve then s.reg r &&& 0x00FF#16 else 0x0000#16)) ∧
      (∀ q, q ≠ r → t.reg q = s.reg q) ∧
      t = { s with ra := t.ra, rb := t.rb, unwritten := t.unwritten }

/-- ST: the data word at A becomes the register's 16 bits; every byte of storage outside that word's two bytes reads as before,
and no register or (the spec's decision D12) status bit changes. -/
def Obligations.StStoresWord : Prop :=
  ∀ (r : Reg) (a : Addr) (s : State), s.Readable [.reg r] →
    ∃ t, exec (.st r a) s = .next t ∧ t.memRead a = s.reg r ∧
      (∀ b, b ≠ a → t.memRead b = s.memRead b) ∧
      (∀ p, p ≠ lowByteAt (s.dataKey a) → p ≠ highByteAt (s.dataKey a) → t.mem.readByte p = s.mem.readByte p) ∧
      t = { s with mem := t.mem, unwritten := t.unwritten }

/-- Only ST writes memory: after any other instruction every byte of storage reads as before. (An inference the spec marks as
its own: "[derived: from the instruction rules R73 to R91]".) -/
def Obligations.OnlyStWritesMemory : Prop :=
  ∀ (i : Instr) (s t : State), exec i s = .next t → (∀ r a, i ≠ .st r a) →
    ∀ p, t.mem.readByte p = s.mem.readByte p

/-- A load sees the latest store: ST to an address and then LD direct from it brings the stored register's value into the
loaded one, and LD direct from another address brings what that held before the store (the spec's decision D17). -/
def Obligations.LoadSeesLatestStore : Prop :=
  ∀ (r q : Reg) (a b : Addr) (s t u : State), exec (.st r a) s = .next t → exec (.ldDirect q b) t = .next u →
    u.reg q = if b = a then s.reg r else s.memRead b

/-- Under `princeton` a store to `a` is what the next fetch from `a` reads, and every other address fetches as before (the
spec's decision D17; what `princeton` means is general knowledge, log 10). -/
def Obligations.PrincetonFetchSeesStore : Prop :=
  ∀ (r : Reg) (a b : Addr) (s t : State), s.cfg.memOrg = .princeton → exec (.st r a) s = .next t →
    t.codeRead b = if b = a then s.reg r else s.codeRead b

/-- Under `harvard` no run changes a word of code memory (what `harvard` means is general knowledge, log 10). -/
def Obligations.HarvardCodeNeverChanges : Prop :=
  ∀ (s t : State), s.cfg.memOrg = .harvard → Reaches s t → ∀ a, t.codeRead a = s.codeRead a

/-- Two immediate loads, of the low and the high byte in either order, build any 16-bit constant in a register under
`preserve` (the spec's decision D8), whatever the register held. -/
def Obligations.TwoByteLoadsBuildConstant : Prop :=
  ∀ (r : Reg) (v : Word) (s t u : State), s.cfg.ldImmOtherByte = .preserve →
    (exec (.ldImm r .low (v.extractLsb' 0 8)) s = .next t → exec (.ldImm r .high (v.extractLsb' 8 8)) t = .next u →
      u.reg r = v) ∧
    (exec (.ldImm r .high (v.extractLsb' 8 8)) s = .next t → exec (.ldImm r .low (v.extractLsb' 0 8)) t = .next u →
      u.reg r = v)

/-! ### INC and BR -/

/-- INC: the selected register becomes its sum with the extended value modulo 2^16; Z, N and C describe that new value, C being
1 exactly when the unsigned sum does not fit (the spec's decisions D4 and D6); all else is unchanged. -/
def Obligations.IncAddsValue : Prop :=
  ∀ (r : Reg) (v : Byte) (s : State), s.Readable [.reg r] →
    ∃ (t : State) (v16 : Word), exec (.inc r v) s = .next t ∧
      v16 = (if s.cfg.incImmExt = .zero then v.zeroExtend 16 else v.signExtend 16) ∧
      (t.reg r).toNat = ((s.reg r).toNat + v16.toNat) % 2 ^ 16 ∧
      (t.z = true ↔ (t.reg r).toNat = 0) ∧ t.n = (t.reg r).getLsbD 15 ∧
      (t.c = true ↔ 2 ^ 16 ≤ (s.reg r).toNat + v16.toNat) ∧
      (∀ q, q ≠ r → t.reg q = s.reg q) ∧
      t = { s with ra := t.ra, rb := t.rb, z := t.z, n := t.n, c := t.c, unwritten := t.unwritten }

/-- R77: the word of a BR, and its effect: PC becomes A exactly when the condition holds, and nothing else changes. -/
def Obligations.BrBranches : Prop :=
  (∀ (rb : ReservedBits) (x z n c : Bool) (a : Addr),
    decodeWord rb (0x3000#16 ||| (if x then 0x0800#16 else 0#16) ||| (if z then 0x0400#16 else 0#16) |||
      (if n then 0x0200#16 else 0#16) ||| (if c then 0x0100#16 else 0#16) ||| a.zeroExtend 16) = .ok (.br x z n c a)) ∧
  ∀ (x z n c : Bool) (a : Addr) (s : State), s.Readable (branchReads x z n c) →
    ∃ take : Bool,
      (take = true ↔
        if x = false then
          (z = false ∧ n = false ∧ c = false) ∨ (z = true ∧ s.z = true) ∨ (n = true ∧ s.n = true) ∨
            (c = true ∧ s.c = true)
        else
          (z = true ∧ n = true ∧ c = true) ∨ (z = true ∧ s.z = false) ∨ (n = true ∧ s.n = false) ∨
            (c = true ∧ s.c = false)) ∧
      exec (.br x z n c a) s = .next { s with pc := if take then a else s.pc }

/-- The named forms: BR (both encodings) always branches, BZ, BN, BC when their bit is 1, BNZ, BNN, BNC when it is 0, and the
word 0x38aa never. (Rows of R69 and R78, which the spec marks as its own decision D23 and as derived.) -/
def Obligations.NamedBranches : Prop :=
  ∀ (a : Addr) (s : State), s.cfg.resetUnspec = .anyValue →
    ∀ (w : Word) (cond : Bool),
      (w, cond) ∈ [(0x3000#16, true), (0x3F00#16, true), (0x3400#16, s.z), (0x3200#16, s.n), (0x3100#16, s.c),
        (0x3C00#16, !s.z), (0x3A00#16, !s.n), (0x3900#16, !s.c), (0x3800#16, false)] →
      ∃ i, decodeWord .fault (w ||| a.zeroExtend 16) = .ok i ∧
        exec i s = .next { s with pc := if cond then a else s.pc }

/-! ### Arithmetic, logic and shift -/

/-- R80: ADD's word; RA becomes the sum modulo 2^16, Z, N and (from Table 1) C are written, RB and all else are unchanged. -/
def Obligations.AddAdds : Prop :=
  (∀ rb, decodeWord rb 0x4000#16 = .ok .add) ∧
  ∀ s : State, s.Readable [.reg .ra, .reg .rb] →
    ∃ t, exec .add s = .next t ∧ t.ra.toNat = (s.ra.toNat + s.rb.toNat) % 2 ^ 16 ∧
      (t.z = true ↔ t.ra.toNat = 0) ∧ t.n = t.ra.getLsbD 15 ∧
      t.c = ((s.ra.getLsbD 15 && s.rb.getLsbD 15) ||
        ((s.ra.getLsbD 15 || s.rb.getLsbD 15) && !t.ra.getLsbD 15)) ∧
      (t.c = true ↔ 2 ^ 16 ≤ s.ra.toNat + s.rb.toNat) ∧
      t = { s with ra := t.ra, z := t.z, n := t.n, c := t.c, unwritten := t.unwritten }

/-- R27: Table 1, row by row, is `T1`, with its formula, and it is what ADD writes to C. -/
def Obligations.CarryTable : Prop :=
  [table1 false false false, table1 false false true, table1 false true true, table1 false true false,
    table1 true false true, table1 true false false, table1 true true false, table1 true true true] =
    [false, false, false, true, false, true, true, true] ∧
  (∀ a b r, table1 a b r = ((a && b) || ((a || b) && !r))) ∧
  ∀ s t : State, exec .add s = .next t → t.c = table1 (s.ra.getLsbD 15) (s.rb.getLsbD 15) (t.ra.getLsbD 15)

/-- Table 1 is the carry out of a 16-bit adder with carry-in. (An inference the spec marks as its own: "[derived: from rule
R27]".) -/
def Obligations.CarryTableIsCarryOut : Prop :=
  ∀ (a b r : Word) (cin : Bool), r = BitVec.ofNat 16 (a.toNat + b.toNat + cin.toNat) →
    (table1 (a.getLsbD 15) (b.getLsbD 15) (r.getLsbD 15) = true ↔ 2 ^ 16 ≤ a.toNat + b.toNat + cin.toNat)

/-- SUB: RA becomes the difference modulo 2^16, Z and N describe it, C is the parameter `SUB_CARRY`'s (the spec's decision D5):
not borrow, borrow, or Table 1 on the printed columns; RB and all else are unchanged. -/
def Obligations.SubSubtracts : Prop :=
  ∀ s : State, s.Readable [.reg .ra, .reg .rb] →
    ∃ t, exec .sub s = .next t ∧ t.ra.toNat = (2 ^ 16 + s.ra.toNat - s.rb.toNat) % 2 ^ 16 ∧
      (t.z = true ↔ s.ra = s.rb) ∧ t.n = t.ra.getLsbD 15 ∧
      (s.cfg.subCarry = .notBorrow → (t.c = true ↔ s.rb.toNat ≤ s.ra.toNat)) ∧
      (s.cfg.subCarry = .borrow → (t.c = true ↔ s.ra.toNat < s.rb.toNat)) ∧
      (s.cfg.subCarry = .table1Literal →
        t.c = table1 (s.ra.getLsbD 15) (s.rb.getLsbD 15) (t.ra.getLsbD 15)) ∧
      t = { s with ra := t.ra, z := t.z, n := t.n, c := t.c, unwritten := t.unwritten }

/-- CMP: the status bits SUB would write, by the arithmetic of the operands (C is the parameter `SUB_CARRY`'s, the spec's
decision D5); no register and nothing else changes. -/
def Obligations.CmpCompares : Prop :=
  ∀ s : State, s.Readable [.reg .ra, .reg .rb] →
    ∃ t, exec .cmp s = .next t ∧ (t.z = true ↔ s.ra = s.rb) ∧ t.n = (s.ra - s.rb).getLsbD 15 ∧
      (s.cfg.subCarry = .notBorrow → (t.c = true ↔ s.rb.toNat ≤ s.ra.toNat)) ∧
      (s.cfg.subCarry = .borrow → (t.c = true ↔ s.ra.toNat < s.rb.toNat)) ∧
      (s.cfg.subCarry = .table1Literal →
        t.c = table1 (s.ra.getLsbD 15) (s.rb.getLsbD 15) ((s.ra - s.rb).getLsbD 15)) ∧
      t = { s with z := t.z, n := t.n, c := t.c, unwritten := t.unwritten }

/-- CMP and then SUB write the same status bits twice (45_cmp_set_clr.md, CMP's corner cases; C is the spec's decision D5). -/
def Obligations.CmpThenSubAgree : Prop :=
  ∀ s t u : State, exec .cmp s = .next t → exec .sub t = .next u → u.z = t.z ∧ u.n = t.n ∧ u.c = t.c

/-- R82, R83, R84: the words of OR, AND and XOR; RA becomes the bitwise result, Z and N describe it, C is cleared, RB and all
else are unchanged. -/
def Obligations.LogicOperations : Prop :=
  (∀ rb, decodeWord rb 0x6000#16 = .ok .or ∧ decodeWord rb 0x7000#16 = .ok .and ∧ decodeWord rb 0x8000#16 = .ok .xor) ∧
  ∀ (i : Instr) (op : Bool → Bool → Bool),
    (i = .or ∧ op = fun a b => a || b) ∨ (i = .and ∧ op = fun a b => a && b) ∨ (i = .xor ∧ op = fun a b => a ^^ b) →
    ∀ s : State, s.Readable [.reg .ra, .reg .rb] →
      ∃ t, exec i s = .next t ∧ (∀ k, k < 16 → t.ra.getLsbD k = op (s.ra.getLsbD k) (s.rb.getLsbD k)) ∧
        (t.z = true ↔ ∀ k, k < 16 → t.ra.getLsbD k = false) ∧ t.n = t.ra.getLsbD 15 ∧ t.c = false ∧
        t = { s with ra := t.ra, z := t.z, n := t.n, c := t.c, unwritten := t.unwritten }

/-- SHR: every bit of RA moves one place down and bit 15 becomes 0; C receives the old bit 0; Z and N keep their values or
describe the new RA as `SHR_ZN` says (the spec's decision D7); all else is unchanged. -/
def Obligations.ShrShifts : Prop :=
  ∀ s : State, s.Readable [.reg .ra] →
    ∃ t, exec .shr s = .next t ∧ (∀ k, k < 15 → t.ra.getLsbD k = s.ra.getLsbD (k + 1)) ∧ t.ra.getLsbD 15 = false ∧
      t.c = s.ra.getLsbD 0 ∧
      (s.cfg.shrZN = .unchanged → t.z = s.z ∧ t.n = s.n) ∧
      (s.cfg.shrZN = .fromResult → (t.z = true ↔ t.ra.toNat = 0) ∧ t.n = false) ∧
      t = { s with ra := t.ra, z := t.z, n := t.n, c := t.c, unwritten := t.unwritten }

/-- The shift-left idiom, MOV then ADD: RB is the old RA, RA is it doubled modulo 2^16, C is its old bit 15. (An inference the
spec marks as its own: "[derived: from 44_mov_exch.md rule R87 and rule R80]".) -/
def Obligations.ShiftLeftIdiom : Prop :=
  ∀ s t u : State, exec .mov s = .next t → exec .add t = .next u →
    u.rb = s.ra ∧ u.ra = s.ra <<< 1 ∧ u.c = s.ra.getLsbD 15 ∧ u.n = s.ra.getLsbD 14 ∧
      (u.z = true ↔ ∀ k, k < 15 → s.ra.getLsbD k = false)

/-! ### Moves and status bits -/

/-- R87: MOV's word; RB becomes RA, and nothing else changes. -/
def Obligations.MovCopies : Prop :=
  (∀ rb, decodeWord rb 0xA000#16 = .ok .mov) ∧
  ∀ s : State, s.Readable [.reg .ra] →
    ∃ t, exec .mov s = .next t ∧ t = { s with rb := s.ra, unwritten := t.unwritten }

/-- R88: EXCH's word; RA and RB are swapped, nothing else changes, and a second EXCH restores both. -/
def Obligations.ExchSwaps : Prop :=
  (∀ rb, decodeWord rb 0xB000#16 = .ok .exch) ∧
  ∀ s : State, s.Readable [.reg .ra, .reg .rb] →
    ∃ t, exec .exch s = .next t ∧ t = { s with ra := s.rb, rb := s.ra, unwritten := t.unwritten } ∧
      ∃ u, exec .exch t = .next u ∧ u.ra = s.ra ∧ u.rb = s.rb

/-- R90: SET's words, with the words of its opcode that have no meaning under `RESERVED_BITS = fault`; each selected status bit
becomes 1, each other keeps its value, and nothing else changes. It always completes. -/
def Obligations.SetSets : Prop :=
  (∀ rb z n c, decodeWord rb (0xD000#16 ||| (if z then 0x0400#16 else 0#16) ||| (if n then 0x0200#16 else 0#16) |||
    (if c then 0x0100#16 else 0#16)) = .ok (.set z n c)) ∧
  (∀ w : Word, w.extractLsb' 12 4 = 0xD#4 →
    (decodeWord .fault w = .reservedEncoding ↔ w.getLsbD 11 = true ∨ w.extractLsb' 0 8 ≠ 0x00#8)) ∧
  ∀ (z n c : Bool) (s : State), ∃ t, exec (.set z n c) s = .next t ∧
    t = { s with z := s.z || z, n := s.n || n, c := s.c || c, unwritten := t.unwritten }

/-- R91: CLR's words, with the words of its opcode that have no meaning under `RESERVED_BITS = fault`; each selected status bit
becomes 0, each other keeps its value, and nothing else changes. It always completes. -/
def Obligations.ClrClears : Prop :=
  (∀ rb z n c, decodeWord rb (0xE000#16 ||| (if z then 0x0400#16 else 0#16) ||| (if n then 0x0200#16 else 0#16) |||
    (if c then 0x0100#16 else 0#16)) = .ok (.clr z n c)) ∧
  (∀ w : Word, w.extractLsb' 12 4 = 0xE#4 →
    (decodeWord .fault w = .reservedEncoding ↔ w.getLsbD 11 = true ∨ w.extractLsb' 0 8 ≠ 0x00#8)) ∧
  ∀ (z n c : Bool) (s : State), ∃ t, exec (.clr z n c) s = .next t ∧
    t = { s with z := s.z && !z, n := s.n && !n, c := s.c && !c, unwritten := t.unwritten }

/-- Only INC, ADD, SUB, OR, AND, XOR, SHR, CMP, SET and CLR write a status bit; LD and ST are in the other group by the spec's
decision D12. -/
def Obligations.StatusBitsKept : Prop :=
  ∀ (i : Instr) (s t : State), exec i s = .next t →
    (∃ r d, i = .ldDirect r d) ∨ (∃ r b d, i = .ldImm r b d) ∨ (∃ r a, i = .st r a) ∨
      (∃ x z n c a, i = .br x z n c a) ∨ i = .mov ∨ i = .exch →
    t.z = s.z ∧ t.n = s.n ∧ t.c = s.c

/-! ### Reset, invariants and runs -/

/-- R105: at every launch PC is 0x00, RA, RB, Z, N and C are whatever they are (no value of theirs is fixed), and the first
step fetches the code word at address 0x00. -/
def Obligations.LaunchFetchesAtZero : Prop :=
  ∀ (cfg : Config) (img : LaunchImage) (ra rb : Word) (z n c : Bool) (s : State),
    s = State.launch cfg img ra rb z n c →
    s.pc = 0x00#8 ∧ s.ra = ra ∧ s.rb = rb ∧ s.z = z ∧ s.n = n ∧ s.c = c ∧ s.cfg = cfg ∧
    ∀ i, s.isUnwritten (.code 0x00#8) = false → decodeWord cfg.reservedBits (s.codeRead 0x00#8) = .ok i →
      step s = exec i { s with pc := 0x01#8 }

/-- At every launch memory holds the launch image: each word it names reads as the image says, in code memory and, under
`harvard`, in data memory (the spec's decision D20). -/
def Obligations.LaunchHoldsImage : Prop :=
  ∀ (cfg : Config) (img : LaunchImage) (ra rb : Word) (z n c : Bool) (a : Addr) (w : Word),
    (img.code a = some w → (State.launch cfg img ra rb z n c).codeRead a = w ∧
      (State.launch cfg img ra rb z n c).isUnwritten (.code a) = false) ∧
    (cfg.memOrg = .harvard → img.data a = some w → (State.launch cfg img ra rb z n c).memRead a = w ∧
      (State.launch cfg img ra rb z n c).isUnwritten (.data a) = false)

/-- `State.reset` is the launch with no word named, the default parameters and the values the model chose for what the spec
leaves unspecified: RA = RB = 0x0000, Z = N = C = 0, MEM_ORG = harvard (the model's choice: log 1, 2, 3, 4). -/
def Obligations.ResetIsALaunch : Prop :=
  State.reset = State.launch Config.default LaunchImage.empty 0x0000#16 0x0000#16 false false false

/-- The invariant holds at every launch (it is the model's own: log 4, 5, 7). -/
def Obligations.LaunchMeetsInv : Prop :=
  ∀ (cfg : Config) (img : LaunchImage) (ra rb : Word) (z n c : Bool), (State.launch cfg img ra rb z n c).Inv

/-- The invariant holds at `State.reset` (the invariant, and the memory and marks of `State.reset`, both empty, are the model's
own: log 1, 4, 5, 7). -/
def Obligations.ResetMeetsInv : Prop := State.reset.Inv

/-- Every step keeps the invariant: storage stays canonical and within the spec's words, and the marks stay in their one order
(the model's own form of the state: log 4, 5, 7). -/
def Obligations.StepKeepsInv : Prop :=
  ∀ s t : State, s.Inv → step s = .next t → t.Inv

/-- No step changes a parameter (they are fixed for a machine: 00_scope.md section 4; held in State by the model's choice,
log 1). -/
def Obligations.StepKeepsParameters : Prop :=
  ∀ s t : State, step s = .next t → t.cfg = s.cfg

/-- The end of a run (the spec's decision D18): at an unconditional BR to its own address the step leaves the whole state
unchanged. -/
def Obligations.SelfBranchIsFixedPoint : Prop :=
  ∀ s : State, s.isUnwritten (.code s.pc) = false → s.selfBranch = true → step s = .next s

/-- Nothing else ends a run: a state that a step leaves unchanged stands at a BR to its own address that is taken (the spec's
decision D18; the source: "executed in this order continuously"). -/
def Obligations.FixedPointIsBranchToItself : Prop :=
  ∀ s : State, step s = .next s →
    ∃ x z n c, s.nextInstr = some (.br x z n c s.pc) ∧ s.branchTaken x z n c = true

/-- `read_faults` is sound for `any_value` (the spec's decision D10): where a machine under `read_faults` takes a step, every
machine under `any_value` that agrees with it in what has been written takes one too, and they still agree. -/
def Obligations.ReadFaultsSimulates : Prop :=
  ∀ s u s' : State, Agree s u → step s = .next s' → ∃ u', step u = .next u' ∧ Agree s' u'

/-- Whatever values reset leaves in what the launch image does not name, a launch under `any_value` agrees with the launch
under `read_faults` (the spec's decision D10 and D20). -/
def Obligations.LaunchesAgree : Prop :=
  ∀ (cfg : Config) (img img' : LaunchImage) (ra rb ra' rb' : Word) (z n c z' n' c' : Bool),
    (∀ a w, img.code a = some w → img'.code a = some w) → (∀ a w, img.data a = some w → img'.data a = some w) →
    Agree (State.launch { cfg with resetUnspec := .readFaults } img ra rb z n c)
      (State.launch { cfg with resetUnspec := .anyValue } img' ra' rb' z' n' c')
end

