-- ==== Sys2Proof/Laws/Decode.lean ====
section
/-! SUPPORT. A word is its fields, and each fixed-zero mask is a test of some of them: what proofs about the decoder need
instead of 65536 words. -/

namespace Sys2Proof

/-- A word is its opcode, its bits 11 to 8 and its low field, in that order (R54). -/
theorem word_eq_fields (w : Word) :
    w = opcodeOf w ++ BitVec.ofBool (w.getLsbD 11) ++ BitVec.ofBool (w.getLsbD 10) ++ BitVec.ofBool (w.getLsbD 9) ++
      BitVec.ofBool (w.getLsbD 8) ++ lowField w := by
  apply BitVec.eq_of_getLsbD_eq
  intro i hi
  simp only [BitVec.getLsbD_append, opcodeOf, lowField, BitVec.getLsbD_extractLsb', BitVec.getLsbD_ofBool]
  interval_cases i <;> simp

/-- A mask is met by 0 exactly when every bit it names is 0. -/
theorem and_eq_zero_iff (w m : Word) :
    w &&& m = 0x0000#16 ↔ ∀ i, i < 16 → m.getLsbD i = true → w.getLsbD i = false := by
  constructor
  · intro h i _ hm
    have := congrArg (fun v => v.getLsbD i) h
    simpa [hm] using this
  · intro h
    apply BitVec.eq_of_getLsbD_eq
    intro i hi
    by_cases hm : m.getLsbD i = true
    · simp [h i hi hm]
    · simp [hm]

theorem lowField_eq_zero_iff (w : Word) : lowField w = 0x00#8 ↔ ∀ i, i < 8 → w.getLsbD i = false := by
  constructor
  · intro h i hi
    have := congrArg (fun v => v.getLsbD i) h
    simpa [lowField, hi] using this
  · intro h
    apply BitVec.eq_of_getLsbD_eq
    intro i hi
    simp [lowField, hi, h i hi]

/-- LD immediate (R63). -/
theorem and_0100_eq_zero (w : Word) : w &&& 0x0100#16 = 0x0000#16 ↔ w.getLsbD 8 = false := by
  rw [and_eq_zero_iff]
  refine ⟨fun h => h 8 (by decide) (by decide), fun h i hi hm => ?_⟩
  interval_cases i <;> first | assumption | exact absurd hm (by decide)

/-- LD direct (R63, R64). -/
theorem and_0300_eq_zero (w : Word) :
    w &&& 0x0300#16 = 0x0000#16 ↔ w.getLsbD 9 = false ∧ w.getLsbD 8 = false := by
  rw [and_eq_zero_iff]
  refine ⟨fun h => ⟨h 9 (by decide) (by decide), h 8 (by decide) (by decide)⟩, ?_⟩
  rintro ⟨h9, h8⟩ i hi hm
  interval_cases i <;> first | assumption | exact absurd hm (by decide)

/-- ST and INC (R63). -/
theorem and_0700_eq_zero (w : Word) :
    w &&& 0x0700#16 = 0x0000#16 ↔ w.getLsbD 10 = false ∧ w.getLsbD 9 = false ∧ w.getLsbD 8 = false := by
  rw [and_eq_zero_iff]
  refine ⟨fun h => ⟨h 10 (by decide) (by decide), h 9 (by decide) (by decide), h 8 (by decide) (by decide)⟩, ?_⟩
  rintro ⟨h10, h9, h8⟩ i hi hm
  interval_cases i <;> first | assumption | exact absurd hm (by decide)

/-- The nine instructions without operands (R63). -/
theorem and_0FFF_eq_zero (w : Word) :
    w &&& 0x0FFF#16 = 0x0000#16 ↔
      w.getLsbD 11 = false ∧ w.getLsbD 10 = false ∧ w.getLsbD 9 = false ∧ w.getLsbD 8 = false ∧ lowField w = 0x00#8 := by
  rw [and_eq_zero_iff, lowField_eq_zero_iff]
  constructor
  · intro h
    refine ⟨h 11 (by decide) (by decide), h 10 (by decide) (by decide), h 9 (by decide) (by decide),
      h 8 (by decide) (by decide), fun i hi => h i (by omega) ?_⟩
    interval_cases i <;> rfl
  · rintro ⟨h11, h10, h9, h8, h⟩ i hi hm
    interval_cases i <;> first | assumption | exact h _ (by decide) | exact absurd hm (by decide)

/-- SET and CLR (R63). -/
theorem and_08FF_eq_zero (w : Word) :
    w &&& 0x08FF#16 = 0x0000#16 ↔ w.getLsbD 11 = false ∧ lowField w = 0x00#8 := by
  rw [and_eq_zero_iff, lowField_eq_zero_iff]
  constructor
  · intro h
    refine ⟨h 11 (by decide) (by decide), fun i hi => h i (by omega) ?_⟩
    interval_cases i <;> rfl
  · rintro ⟨h11, h⟩ i hi hm
    interval_cases i <;> first | assumption | exact h _ (by decide) | exact absurd hm (by decide)

/-- The sixteen opcodes, for case splits. -/
theorem opcode_cases (op : BitVec 4) :
    op = 0x0#4 ∨ op = 0x1#4 ∨ op = 0x2#4 ∨ op = 0x3#4 ∨ op = 0x4#4 ∨ op = 0x5#4 ∨ op = 0x6#4 ∨ op = 0x7#4 ∨
      op = 0x8#4 ∨ op = 0x9#4 ∨ op = 0xA#4 ∨ op = 0xB#4 ∨ op = 0xC#4 ∨ op = 0xD#4 ∨ op = 0xE#4 ∨ op = 0xF#4 := by
  decide +revert

end Sys2Proof
end

