-- ==== Sys2Proof/Laws/Memory.lean ====
section
/-! SUPPORT. The laws of storage: reading back what was written, leaving every other byte and word alone, and keeping the
canonical form. The read laws hold for every list, canonical or not. -/

namespace Sys2Proof.Machine

/-! ### One byte -/

@[simp] theorem Memory.readByte_nil (p : Nat) : Memory.readByte [] p = Config.blankByte := rfl

theorem Memory.readByte_cons (k : Nat) (v : Byte) (m : Memory) (p : Nat) :
    Memory.readByte ((k, v) :: m) p = if p = k then v else Memory.readByte m p := rfl

theorem Memory.erase_cons (k : Nat) (v : Byte) (m : Memory) (p : Nat) :
    Memory.erase ((k, v) :: m) p = if k = p then Memory.erase m p else (k, v) :: Memory.erase m p := by
  by_cases h : k = p <;> simp [Memory.erase, h]

theorem Memory.readByte_erase (m : Memory) (p q : Nat) :
    Memory.readByte (Memory.erase m p) q = if q = p then Config.blankByte else Memory.readByte m q := by
  induction m with
  | nil => simp [Memory.erase]
  | cons cell m ih =>
    obtain ⟨k, v⟩ := cell
    rw [Memory.erase_cons, Memory.readByte_cons]
    split <;> (try rw [Memory.readByte_cons]) <;> rw [ih] <;> grind

theorem Memory.readByte_insert (m : Memory) (p : Nat) (v : Byte) (q : Nat) :
    Memory.readByte (Memory.insert (Memory.erase m p) p v) q = if q = p then v else Memory.readByte m q := by
  induction m with
  | nil => simp [Memory.erase, Memory.insert, Memory.readByte_cons]
  | cons cell m ih =>
    obtain ⟨k, w⟩ := cell
    rw [Memory.erase_cons, Memory.readByte_cons]
    split
    · rw [ih]; grind
    · rw [Memory.insert]
      split
      · simp only [Memory.readByte_cons, Memory.readByte_erase]; grind
      · rw [Memory.readByte_cons, ih]; grind

/-- A byte write is seen at its own address and nowhere else. -/
theorem Memory.readByte_writeByte (m : Memory) (p : Nat) (v : Byte) (q : Nat) :
    Memory.readByte (Memory.writeByte m p v) q = if q = p then v else Memory.readByte m q := by
  unfold Memory.writeByte
  split
  · rename_i h; rw [Memory.readByte_erase, h]
  · exact Memory.readByte_insert m p v q

/-! ### The canonical form -/

theorem Memory.wf_iff (m : Memory) :
    Memory.wf m = true ↔ m.Pairwise (fun a b => a.1 < b.1) ∧ ∀ cell ∈ m, cell.2 ≠ Config.blankByte := by
  simp [Memory.wf]

@[simp] theorem Memory.wf_nil : Memory.wf [] = true := rfl

theorem Memory.mem_insert (m : Memory) (p : Nat) (v : Byte) (cell : Host.Cell) :
    cell ∈ Memory.insert m p v ↔ cell = (p, v) ∨ cell ∈ m := by
  induction m with
  | nil => simp [Memory.insert]
  | cons c m ih =>
    obtain ⟨k, w⟩ := c
    rw [Memory.insert]
    split
    · simp
    · simp [ih]; tauto

/-- Inserting at an address that is not listed keeps the addresses strictly rising. -/
theorem Memory.insert_sorted (m : Memory) (p : Nat) (v : Byte) (h : m.Pairwise (fun a b => a.1 < b.1))
    (hp : ∀ cell ∈ m, cell.1 ≠ p) : (Memory.insert m p v).Pairwise (fun a b => a.1 < b.1) := by
  induction m with
  | nil => simp [Memory.insert]
  | cons c m ih =>
    obtain ⟨k, w⟩ := c
    rw [List.pairwise_cons] at h
    have hk : k ≠ p := hp (k, w) (by simp)
    rw [Memory.insert]
    split
    · rename_i hlt
      refine List.pairwise_cons.mpr ⟨fun b hb => ?_, List.pairwise_cons.mpr h⟩
      rcases List.mem_cons.mp hb with rfl | hb
      · exact hlt
      · exact lt_trans hlt (h.1 b hb)
    · rename_i hlt
      refine List.pairwise_cons.mpr ⟨fun b hb => ?_, ih h.2 (fun cell hc => hp cell (by simp [hc]))⟩
      rcases (Memory.mem_insert m p v b).mp hb with rfl | hb
      · show k < p; omega
      · exact h.1 b hb

theorem Memory.erase_wf (m : Memory) (p : Nat) (h : Memory.wf m = true) : Memory.wf (Memory.erase m p) = true := by
  rw [Memory.wf_iff] at h ⊢
  exact ⟨h.1.filter _, fun cell hc => h.2 cell (List.mem_of_mem_filter hc)⟩

theorem Memory.erase_not_listed (m : Memory) (p : Nat) : ∀ cell ∈ Memory.erase m p, cell.1 ≠ p := by
  intro cell hc
  simpa using (List.mem_filter.mp hc).2

/-- A byte write keeps the canonical form. -/
theorem Memory.writeByte_wf (m : Memory) (p : Nat) (v : Byte) (h : Memory.wf m = true) :
    Memory.wf (Memory.writeByte m p v) = true := by
  have he := Memory.erase_wf m p h
  unfold Memory.writeByte
  split
  · exact he
  · rename_i hv
    rw [Memory.wf_iff] at he ⊢
    refine ⟨Memory.insert_sorted _ p v he.1 (Memory.erase_not_listed m p), fun cell hc => ?_⟩
    rcases (Memory.mem_insert _ p v cell).mp hc with rfl | hc
    · exact hv
    · exact he.2 cell hc

theorem Memory.below_iff (m : Memory) (bound : Nat) : Memory.below m bound = true ↔ ∀ cell ∈ m, cell.1 < bound := by
  simp [Memory.below]

@[simp] theorem Memory.below_nil (bound : Nat) : Memory.below [] bound = true := rfl

/-- A byte write below a bound lists no address that is not. -/
theorem Memory.writeByte_below (m : Memory) (p : Nat) (v : Byte) (bound : Nat) (h : Memory.below m bound = true)
    (hp : p < bound) : Memory.below (Memory.writeByte m p v) bound = true := by
  rw [Memory.below_iff] at h ⊢
  have he : ∀ cell ∈ Memory.erase m p, cell.1 < bound := fun cell hc => h cell (List.mem_of_mem_filter hc)
  unfold Memory.writeByte
  split
  · exact he
  · intro cell hc
    rcases (Memory.mem_insert _ p v cell).mp hc with rfl | hc
    · exact hp
    · exact he cell hc

/-! ### One word -/

@[simp] theorem lowByte_joinBytes (hi lo : Byte) : lowByte (joinBytes hi lo) = lo := by
  apply BitVec.eq_of_getLsbD_eq
  intro i hi'
  simp only [lowByte, joinBytes, BitVec.getLsbD_extractLsb', BitVec.getLsbD_append]
  simp [hi']

@[simp] theorem highByte_joinBytes (hi lo : Byte) : highByte (joinBytes hi lo) = hi := by
  apply BitVec.eq_of_getLsbD_eq
  intro i hi'
  simp only [highByte, joinBytes, BitVec.getLsbD_extractLsb', BitVec.getLsbD_append]
  simp [hi']

/-- A word is its two bytes. -/
@[simp] theorem joinBytes_bytes (w : Word) : joinBytes (highByte w) (lowByte w) = w := by
  apply BitVec.eq_of_getLsbD_eq
  intro i hi
  simp only [joinBytes, highByte, lowByte, BitVec.getLsbD_append, BitVec.getLsbD_extractLsb']
  by_cases h : i < 8
  · simp [h]
  · have : i - 8 < 8 := by omega
    have h8 : 8 + (i - 8) = i := by omega
    simp [h, this, h8]

/-- A word write, seen through the read of one byte: exactly its own two bytes change. -/
theorem Memory.readByte_writeWord (m : Memory) (key : Nat) (w : Word) (p : Nat) :
    Memory.readByte (Memory.writeWord m key w) p =
      if p = highByteAt key then highByte w else if p = lowByteAt key then lowByte w else Memory.readByte m p := by
  simp only [Memory.writeWord, Memory.readByte_writeByte]

/-- A word write is seen at its own index and nowhere else. -/
theorem Memory.readWord_writeWord (m : Memory) (key : Nat) (w : Word) (key' : Nat) :
    Memory.readWord (Memory.writeWord m key w) key' = if key' = key then w else Memory.readWord m key' := by
  unfold Memory.readWord
  rw [Memory.readByte_writeWord, Memory.readByte_writeWord]
  unfold highByteAt lowByteAt
  by_cases h : key' = key
  · subst h; simp
  · have h1 : 2 * key' + 1 ≠ 2 * key + 1 := by omega
    have h2 : 2 * key' + 1 ≠ 2 * key := by omega
    have h3 : 2 * key' ≠ 2 * key + 1 := by omega
    have h4 : 2 * key' ≠ 2 * key := by omega
    simp only [h1, h2, h3, h4, h, if_false]

/-- A word write keeps the canonical form. -/
theorem Memory.writeWord_wf (m : Memory) (key : Nat) (w : Word) (h : Memory.wf m = true) :
    Memory.wf (Memory.writeWord m key w) = true :=
  Memory.writeByte_wf _ _ _ (Memory.writeByte_wf _ _ _ h)

/-- A word write below a bound of words stays below it. -/
theorem Memory.writeWord_below (m : Memory) (key : Nat) (w : Word) (words : Nat)
    (h : Memory.below m (2 * words) = true) (hk : key < words) :
    Memory.below (Memory.writeWord m key w) (2 * words) = true :=
  Memory.writeByte_below _ _ _ _
    (Memory.writeByte_below _ _ _ _ h (by unfold lowByteAt; omega)) (by unfold highByteAt; omega)

end Sys2Proof.Machine
end

