-- ==== Sys2Proof/Laws/State.lean ====
section
/-! SUPPORT. One lemma for each field under each update of the state, so that no proof unfolds a record update. -/

namespace Sys2Proof.Machine

/-- Two states with the same fields are the same. -/
theorem State.eq_of_fields {s t : State} (hra : s.ra = t.ra) (hrb : s.rb = t.rb) (hpc : s.pc = t.pc) (hz : s.z = t.z)
    (hn : s.n = t.n) (hc : s.c = t.c) (hmem : s.mem = t.mem) (hmarks : s.unwritten = t.unwritten) (hcfg : s.cfg = t.cfg) :
    s = t := by
  cases s
  cases t
  simp_all

/-! ### Marks -/

@[simp] theorem State.markWritten_ra (s : State) (ms : List Mark) :
    (s.markWritten ms).ra = s.ra := rfl

@[simp] theorem State.markWritten_rb (s : State) (ms : List Mark) :
    (s.markWritten ms).rb = s.rb := rfl

@[simp] theorem State.markWritten_pc (s : State) (ms : List Mark) :
    (s.markWritten ms).pc = s.pc := rfl

@[simp] theorem State.markWritten_z (s : State) (ms : List Mark) :
    (s.markWritten ms).z = s.z := rfl

@[simp] theorem State.markWritten_n (s : State) (ms : List Mark) :
    (s.markWritten ms).n = s.n := rfl

@[simp] theorem State.markWritten_c (s : State) (ms : List Mark) :
    (s.markWritten ms).c = s.c := rfl

@[simp] theorem State.markWritten_mem (s : State) (ms : List Mark) :
    (s.markWritten ms).mem = s.mem := rfl

@[simp] theorem State.markWritten_unwritten (s : State) (ms : List Mark) :
    (s.markWritten ms).unwritten = dropMarks s.unwritten ms := rfl

@[simp] theorem State.markWritten_cfg (s : State) (ms : List Mark) :
    (s.markWritten ms).cfg = s.cfg := rfl

/-! ### The program counter -/

@[simp] theorem State.setPc_ra (s : State) (a : Addr) :
    (s.setPc a).ra = s.ra := rfl

@[simp] theorem State.setPc_rb (s : State) (a : Addr) :
    (s.setPc a).rb = s.rb := rfl

@[simp] theorem State.setPc_pc (s : State) (a : Addr) :
    (s.setPc a).pc = a := rfl

@[simp] theorem State.setPc_z (s : State) (a : Addr) :
    (s.setPc a).z = s.z := rfl

@[simp] theorem State.setPc_n (s : State) (a : Addr) :
    (s.setPc a).n = s.n := rfl

@[simp] theorem State.setPc_c (s : State) (a : Addr) :
    (s.setPc a).c = s.c := rfl

@[simp] theorem State.setPc_mem (s : State) (a : Addr) :
    (s.setPc a).mem = s.mem := rfl

@[simp] theorem State.setPc_unwritten (s : State) (a : Addr) :
    (s.setPc a).unwritten = s.unwritten := rfl

@[simp] theorem State.setPc_cfg (s : State) (a : Addr) :
    (s.setPc a).cfg = s.cfg := rfl

@[simp] theorem State.advance_ra (s : State) :
    (s.advance).ra = s.ra := rfl

@[simp] theorem State.advance_rb (s : State) :
    (s.advance).rb = s.rb := rfl

@[simp] theorem State.advance_pc (s : State) :
    (s.advance).pc = s.pc + 1 := rfl

@[simp] theorem State.advance_z (s : State) :
    (s.advance).z = s.z := rfl

@[simp] theorem State.advance_n (s : State) :
    (s.advance).n = s.n := rfl

@[simp] theorem State.advance_c (s : State) :
    (s.advance).c = s.c := rfl

@[simp] theorem State.advance_mem (s : State) :
    (s.advance).mem = s.mem := rfl

@[simp] theorem State.advance_unwritten (s : State) :
    (s.advance).unwritten = s.unwritten := rfl

@[simp] theorem State.advance_cfg (s : State) :
    (s.advance).cfg = s.cfg := rfl

/-! ### Registers -/

@[simp] theorem State.putReg_ra_ra (s : State) (v : Word) :
    (s.putReg .ra v).ra = v := rfl

@[simp] theorem State.putReg_ra_rb (s : State) (v : Word) :
    (s.putReg .ra v).rb = s.rb := rfl

@[simp] theorem State.putReg_ra_pc (s : State) (v : Word) :
    (s.putReg .ra v).pc = s.pc := rfl

@[simp] theorem State.putReg_ra_z (s : State) (v : Word) :
    (s.putReg .ra v).z = s.z := rfl

@[simp] theorem State.putReg_ra_n (s : State) (v : Word) :
    (s.putReg .ra v).n = s.n := rfl

@[simp] theorem State.putReg_ra_c (s : State) (v : Word) :
    (s.putReg .ra v).c = s.c := rfl

@[simp] theorem State.putReg_ra_mem (s : State) (v : Word) :
    (s.putReg .ra v).mem = s.mem := rfl

@[simp] theorem State.putReg_ra_unwritten (s : State) (v : Word) :
    (s.putReg .ra v).unwritten = s.unwritten := rfl

@[simp] theorem State.putReg_ra_cfg (s : State) (v : Word) :
    (s.putReg .ra v).cfg = s.cfg := rfl

@[simp] theorem State.putReg_rb_ra (s : State) (v : Word) :
    (s.putReg .rb v).ra = s.ra := rfl

@[simp] theorem State.putReg_rb_rb (s : State) (v : Word) :
    (s.putReg .rb v).rb = v := rfl

@[simp] theorem State.putReg_rb_pc (s : State) (v : Word) :
    (s.putReg .rb v).pc = s.pc := rfl

@[simp] theorem State.putReg_rb_z (s : State) (v : Word) :
    (s.putReg .rb v).z = s.z := rfl

@[simp] theorem State.putReg_rb_n (s : State) (v : Word) :
    (s.putReg .rb v).n = s.n := rfl

@[simp] theorem State.putReg_rb_c (s : State) (v : Word) :
    (s.putReg .rb v).c = s.c := rfl

@[simp] theorem State.putReg_rb_mem (s : State) (v : Word) :
    (s.putReg .rb v).mem = s.mem := rfl

@[simp] theorem State.putReg_rb_unwritten (s : State) (v : Word) :
    (s.putReg .rb v).unwritten = s.unwritten := rfl

@[simp] theorem State.putReg_rb_cfg (s : State) (v : Word) :
    (s.putReg .rb v).cfg = s.cfg := rfl

@[simp] theorem State.setReg_ra_ra (s : State) (v : Word) :
    (s.setReg .ra v).ra = v := rfl

@[simp] theorem State.setReg_ra_rb (s : State) (v : Word) :
    (s.setReg .ra v).rb = s.rb := rfl

@[simp] theorem State.setReg_ra_pc (s : State) (v : Word) :
    (s.setReg .ra v).pc = s.pc := rfl

@[simp] theorem State.setReg_ra_z (s : State) (v : Word) :
    (s.setReg .ra v).z = s.z := rfl

@[simp] theorem State.setReg_ra_n (s : State) (v : Word) :
    (s.setReg .ra v).n = s.n := rfl

@[simp] theorem State.setReg_ra_c (s : State) (v : Word) :
    (s.setReg .ra v).c = s.c := rfl

@[simp] theorem State.setReg_ra_mem (s : State) (v : Word) :
    (s.setReg .ra v).mem = s.mem := rfl

@[simp] theorem State.setReg_ra_unwritten (s : State) (v : Word) :
    (s.setReg .ra v).unwritten = dropMarks s.unwritten [.byte .ra .low, .byte .ra .high] := rfl

@[simp] theorem State.setReg_ra_cfg (s : State) (v : Word) :
    (s.setReg .ra v).cfg = s.cfg := rfl

@[simp] theorem State.setReg_rb_ra (s : State) (v : Word) :
    (s.setReg .rb v).ra = s.ra := rfl

@[simp] theorem State.setReg_rb_rb (s : State) (v : Word) :
    (s.setReg .rb v).rb = v := rfl

@[simp] theorem State.setReg_rb_pc (s : State) (v : Word) :
    (s.setReg .rb v).pc = s.pc := rfl

@[simp] theorem State.setReg_rb_z (s : State) (v : Word) :
    (s.setReg .rb v).z = s.z := rfl

@[simp] theorem State.setReg_rb_n (s : State) (v : Word) :
    (s.setReg .rb v).n = s.n := rfl

@[simp] theorem State.setReg_rb_c (s : State) (v : Word) :
    (s.setReg .rb v).c = s.c := rfl

@[simp] theorem State.setReg_rb_mem (s : State) (v : Word) :
    (s.setReg .rb v).mem = s.mem := rfl

@[simp] theorem State.setReg_rb_unwritten (s : State) (v : Word) :
    (s.setReg .rb v).unwritten = dropMarks s.unwritten [.byte .rb .low, .byte .rb .high] := rfl

@[simp] theorem State.setReg_rb_cfg (s : State) (v : Word) :
    (s.setReg .rb v).cfg = s.cfg := rfl

@[simp] theorem State.putReg_pc (s : State) (r : Reg) (v : Word) :
    (s.putReg r v).pc = s.pc := by cases r <;> rfl

@[simp] theorem State.putReg_z (s : State) (r : Reg) (v : Word) :
    (s.putReg r v).z = s.z := by cases r <;> rfl

@[simp] theorem State.putReg_n (s : State) (r : Reg) (v : Word) :
    (s.putReg r v).n = s.n := by cases r <;> rfl

@[simp] theorem State.putReg_c (s : State) (r : Reg) (v : Word) :
    (s.putReg r v).c = s.c := by cases r <;> rfl

@[simp] theorem State.putReg_mem (s : State) (r : Reg) (v : Word) :
    (s.putReg r v).mem = s.mem := by cases r <;> rfl

@[simp] theorem State.putReg_unwritten (s : State) (r : Reg) (v : Word) :
    (s.putReg r v).unwritten = s.unwritten := by cases r <;> rfl

@[simp] theorem State.putReg_cfg (s : State) (r : Reg) (v : Word) :
    (s.putReg r v).cfg = s.cfg := by cases r <;> rfl

@[simp] theorem State.setReg_pc (s : State) (r : Reg) (v : Word) :
    (s.setReg r v).pc = s.pc := by cases r <;> rfl

@[simp] theorem State.setReg_z (s : State) (r : Reg) (v : Word) :
    (s.setReg r v).z = s.z := by cases r <;> rfl

@[simp] theorem State.setReg_n (s : State) (r : Reg) (v : Word) :
    (s.setReg r v).n = s.n := by cases r <;> rfl

@[simp] theorem State.setReg_c (s : State) (r : Reg) (v : Word) :
    (s.setReg r v).c = s.c := by cases r <;> rfl

@[simp] theorem State.setReg_mem (s : State) (r : Reg) (v : Word) :
    (s.setReg r v).mem = s.mem := by cases r <;> rfl

@[simp] theorem State.setReg_unwritten (s : State) (r : Reg) (v : Word) :
    (s.setReg r v).unwritten = dropMarks s.unwritten [.byte r .low, .byte r .high] := by cases r <;> rfl

@[simp] theorem State.setReg_cfg (s : State) (r : Reg) (v : Word) :
    (s.setReg r v).cfg = s.cfg := by cases r <;> rfl

@[simp] theorem State.putReg_ra (s : State) (r : Reg) (v : Word) :
    (s.putReg r v).ra = if r = .ra then v else s.ra := by cases r <;> rfl

@[simp] theorem State.putReg_rb (s : State) (r : Reg) (v : Word) :
    (s.putReg r v).rb = if r = .rb then v else s.rb := by cases r <;> rfl

@[simp] theorem State.setReg_ra (s : State) (r : Reg) (v : Word) :
    (s.setReg r v).ra = if r = .ra then v else s.ra := by cases r <;> rfl

@[simp] theorem State.setReg_rb (s : State) (r : Reg) (v : Word) :
    (s.setReg r v).rb = if r = .rb then v else s.rb := by cases r <;> rfl

@[simp] theorem State.reg_ra (s : State) : s.reg .ra = s.ra := rfl

@[simp] theorem State.reg_rb (s : State) : s.reg .rb = s.rb := rfl

@[simp] theorem State.reg_putReg (s : State) (r q : Reg) (v : Word) :
    (s.putReg r v).reg q = if q = r then v else s.reg q := by cases r <;> cases q <;> rfl

@[simp] theorem State.reg_setReg (s : State) (r q : Reg) (v : Word) :
    (s.setReg r v).reg q = if q = r then v else s.reg q := by cases r <;> cases q <;> rfl

@[simp] theorem State.reg_markWritten (s : State) (ms : List Mark) (q : Reg) :
    (s.markWritten ms).reg q = s.reg q := by cases q <;> rfl

/-! ### Status bits -/

@[simp] theorem State.setFlag_z_ra (s : State) (b : Bool) :
    (s.setFlag .z b).ra = s.ra := rfl

@[simp] theorem State.setFlag_z_rb (s : State) (b : Bool) :
    (s.setFlag .z b).rb = s.rb := rfl

@[simp] theorem State.setFlag_z_pc (s : State) (b : Bool) :
    (s.setFlag .z b).pc = s.pc := rfl

@[simp] theorem State.setFlag_z_z (s : State) (b : Bool) :
    (s.setFlag .z b).z = b := rfl

@[simp] theorem State.setFlag_z_n (s : State) (b : Bool) :
    (s.setFlag .z b).n = s.n := rfl

@[simp] theorem State.setFlag_z_c (s : State) (b : Bool) :
    (s.setFlag .z b).c = s.c := rfl

@[simp] theorem State.setFlag_z_mem (s : State) (b : Bool) :
    (s.setFlag .z b).mem = s.mem := rfl

@[simp] theorem State.setFlag_z_unwritten (s : State) (b : Bool) :
    (s.setFlag .z b).unwritten = dropMarks s.unwritten [.flag .z] := rfl

@[simp] theorem State.setFlag_z_cfg (s : State) (b : Bool) :
    (s.setFlag .z b).cfg = s.cfg := rfl

@[simp] theorem State.setFlag_n_ra (s : State) (b : Bool) :
    (s.setFlag .n b).ra = s.ra := rfl

@[simp] theorem State.setFlag_n_rb (s : State) (b : Bool) :
    (s.setFlag .n b).rb = s.rb := rfl

@[simp] theorem State.setFlag_n_pc (s : State) (b : Bool) :
    (s.setFlag .n b).pc = s.pc := rfl

@[simp] theorem State.setFlag_n_z (s : State) (b : Bool) :
    (s.setFlag .n b).z = s.z := rfl

@[simp] theorem State.setFlag_n_n (s : State) (b : Bool) :
    (s.setFlag .n b).n = b := rfl

@[simp] theorem State.setFlag_n_c (s : State) (b : Bool) :
    (s.setFlag .n b).c = s.c := rfl

@[simp] theorem State.setFlag_n_mem (s : State) (b : Bool) :
    (s.setFlag .n b).mem = s.mem := rfl

@[simp] theorem State.setFlag_n_unwritten (s : State) (b : Bool) :
    (s.setFlag .n b).unwritten = dropMarks s.unwritten [.flag .n] := rfl

@[simp] theorem State.setFlag_n_cfg (s : State) (b : Bool) :
    (s.setFlag .n b).cfg = s.cfg := rfl

@[simp] theorem State.setFlag_c_ra (s : State) (b : Bool) :
    (s.setFlag .c b).ra = s.ra := rfl

@[simp] theorem State.setFlag_c_rb (s : State) (b : Bool) :
    (s.setFlag .c b).rb = s.rb := rfl

@[simp] theorem State.setFlag_c_pc (s : State) (b : Bool) :
    (s.setFlag .c b).pc = s.pc := rfl

@[simp] theorem State.setFlag_c_z (s : State) (b : Bool) :
    (s.setFlag .c b).z = s.z := rfl

@[simp] theorem State.setFlag_c_n (s : State) (b : Bool) :
    (s.setFlag .c b).n = s.n := rfl

@[simp] theorem State.setFlag_c_c (s : State) (b : Bool) :
    (s.setFlag .c b).c = b := rfl

@[simp] theorem State.setFlag_c_mem (s : State) (b : Bool) :
    (s.setFlag .c b).mem = s.mem := rfl

@[simp] theorem State.setFlag_c_unwritten (s : State) (b : Bool) :
    (s.setFlag .c b).unwritten = dropMarks s.unwritten [.flag .c] := rfl

@[simp] theorem State.setFlag_c_cfg (s : State) (b : Bool) :
    (s.setFlag .c b).cfg = s.cfg := rfl

@[simp] theorem State.setFlag_ra (s : State) (f : Flag) (b : Bool) :
    (s.setFlag f b).ra = s.ra := by cases f <;> rfl

@[simp] theorem State.setFlag_rb (s : State) (f : Flag) (b : Bool) :
    (s.setFlag f b).rb = s.rb := by cases f <;> rfl

@[simp] theorem State.setFlag_pc (s : State) (f : Flag) (b : Bool) :
    (s.setFlag f b).pc = s.pc := by cases f <;> rfl

@[simp] theorem State.setFlag_mem (s : State) (f : Flag) (b : Bool) :
    (s.setFlag f b).mem = s.mem := by cases f <;> rfl

@[simp] theorem State.setFlag_unwritten (s : State) (f : Flag) (b : Bool) :
    (s.setFlag f b).unwritten = dropMarks s.unwritten [.flag f] := by cases f <;> rfl

@[simp] theorem State.setFlag_cfg (s : State) (f : Flag) (b : Bool) :
    (s.setFlag f b).cfg = s.cfg := by cases f <;> rfl

@[simp] theorem State.flag_z (s : State) : s.flag .z = s.z := rfl

@[simp] theorem State.flag_n (s : State) : s.flag .n = s.n := rfl

@[simp] theorem State.flag_c (s : State) : s.flag .c = s.c := rfl

@[simp] theorem State.flag_setFlag (s : State) (f g : Flag) (b : Bool) :
    (s.setFlag f b).flag g = if g = f then b else s.flag g := by cases f <;> cases g <;> rfl

/-! ### Memory -/

@[simp] theorem State.memWrite_ra (s : State) (a : Addr) (v : Word) :
    (s.memWrite a v).ra = s.ra := rfl

@[simp] theorem State.memWrite_rb (s : State) (a : Addr) (v : Word) :
    (s.memWrite a v).rb = s.rb := rfl

@[simp] theorem State.memWrite_pc (s : State) (a : Addr) (v : Word) :
    (s.memWrite a v).pc = s.pc := rfl

@[simp] theorem State.memWrite_z (s : State) (a : Addr) (v : Word) :
    (s.memWrite a v).z = s.z := rfl

@[simp] theorem State.memWrite_n (s : State) (a : Addr) (v : Word) :
    (s.memWrite a v).n = s.n := rfl

@[simp] theorem State.memWrite_c (s : State) (a : Addr) (v : Word) :
    (s.memWrite a v).c = s.c := rfl

@[simp] theorem State.memWrite_mem (s : State) (a : Addr) (v : Word) :
    (s.memWrite a v).mem = s.mem.writeWord (s.dataKey a) v := rfl

@[simp] theorem State.memWrite_unwritten (s : State) (a : Addr) (v : Word) :
    (s.memWrite a v).unwritten = dropMarks s.unwritten [.word (s.dataKey a)] := rfl

@[simp] theorem State.memWrite_cfg (s : State) (a : Addr) (v : Word) :
    (s.memWrite a v).cfg = s.cfg := rfl

@[simp] theorem State.placeCode_ra (s : State) (w : Word) :
    (s.placeCode w).ra = s.ra := rfl

@[simp] theorem State.placeCode_rb (s : State) (w : Word) :
    (s.placeCode w).rb = s.rb := rfl

@[simp] theorem State.placeCode_pc (s : State) (w : Word) :
    (s.placeCode w).pc = s.pc := rfl

@[simp] theorem State.placeCode_z (s : State) (w : Word) :
    (s.placeCode w).z = s.z := rfl

@[simp] theorem State.placeCode_n (s : State) (w : Word) :
    (s.placeCode w).n = s.n := rfl

@[simp] theorem State.placeCode_c (s : State) (w : Word) :
    (s.placeCode w).c = s.c := rfl

@[simp] theorem State.placeCode_mem (s : State) (w : Word) :
    (s.placeCode w).mem = s.mem.writeWord (s.codeKey s.pc) w := rfl

@[simp] theorem State.placeCode_unwritten (s : State) (w : Word) :
    (s.placeCode w).unwritten = dropMarks s.unwritten [.word (s.codeKey s.pc)] := rfl

@[simp] theorem State.placeCode_cfg (s : State) (w : Word) :
    (s.placeCode w).cfg = s.cfg := rfl

end Sys2Proof.Machine
end

