-- ==== Sys2Proof/Laws/Ops.lean ====
section
/-! SUPPORT. What each shared operation can do, said once: marks, the guard `State.reading`, the memory primitives, the fetch
phase and the step. -/

namespace Sys2Proof.Machine

/-! ### Marks -/

@[simp] theorem dropMarks_nil (ms : List Mark) : dropMarks [] ms = [] := rfl

@[simp] theorem dropMarks_none (l : List Mark) : dropMarks l [] = l := by simp [dropMarks]

theorem mem_dropMarks (l ms : List Mark) (m : Mark) : m ∈ dropMarks l ms ↔ m ∈ l ∧ m ∉ ms := by
  simp [dropMarks]

theorem dropMarks_sublist (l ms : List Mark) : (dropMarks l ms).Sublist l := List.filter_sublist

/-- Two writes drop the marks of both. -/
@[simp] theorem dropMarks_dropMarks (l a b : List Mark) : dropMarks (dropMarks l a) b = dropMarks l (a ++ b) := by
  unfold dropMarks
  rw [List.filter_filter]
  refine List.filter_congr fun m _ => ?_
  by_cases ha : m ∈ a <;> by_cases hb : m ∈ b <;> simp [ha, hb]

theorem State.marked_eq_true (s : State) (m : Mark) :
    s.marked m = true ↔ s.cfg.resetUnspec = .readFaults ∧ m ∈ s.unwritten := by
  simp [State.marked]

/-- Under `any_value` nothing is unwritten. -/
theorem State.isUnwritten_anyValue (s : State) (h : s.cfg.resetUnspec = .anyValue) (item : ReadItem) :
    s.isUnwritten item = false := by
  cases item <;> simp [State.isUnwritten, State.marksOf, State.marked, h]

theorem State.readable_anyValue (s : State) (h : s.cfg.resetUnspec = .anyValue) (items : List ReadItem) :
    s.Readable items := fun item _ => s.isUnwritten_anyValue h item

theorem State.readable_nil (s : State) : s.Readable [] := fun _ h => absurd h List.not_mem_nil

/-! ### The guard -/

theorem State.reading_of_readable (s : State) (items : List ReadItem) (t : State) (h : s.Readable items) :
    s.reading items t = .next t := by
  have hf : items.find? s.isUnwritten = none := List.find?_eq_none.mpr (fun x hx => by simp [h x hx])
  simp [State.reading, hf]

@[simp] theorem State.reading_nil (s t : State) : s.reading [] t = .next t := rfl

/-- The guard answers a next state exactly when everything it reads is readable, and then the state it was given. -/
theorem State.reading_eq_next (s : State) (items : List ReadItem) (t u : State) :
    s.reading items t = .next u ↔ s.Readable items ∧ u = t := by
  constructor
  · intro h
    unfold State.reading at h
    split at h
    · cases h
    · rename_i hf
      cases h
      exact ⟨fun x hx => by simpa using List.find?_eq_none.mp hf x hx, rfl⟩
  · rintro ⟨h, rfl⟩
    exact s.reading_of_readable items u h

/-- The guard's only fault names an unwritten item that it reads. -/
theorem State.reading_eq_fault (s : State) (items : List ReadItem) (t : State) (f : Fault)
    (h : s.reading items t = .fault f) :
    ∃ item ∈ items, s.isUnwritten item = true ∧ f = .unwrittenRead item := by
  unfold State.reading at h
  split at h
  · rename_i item hf
    cases h
    exact ⟨item, List.mem_of_find?_eq_some hf, List.find?_some hf, rfl⟩
  · cases h

/-- The guard never refuses. -/
theorem State.reading_ne_refused (s : State) (items : List ReadItem) (t : State) (r : Refusal) :
    s.reading items t ≠ .refused r := by
  unfold State.reading
  split <;> simp

/-- Every meaning is a guard over what its instruction reads: none faults in another way, and none refuses. -/
theorem exec_eq_reading (i : Instr) (s : State) : ∃ t, exec i s = s.reading (instrReads i) t := by
  cases i <;> exact ⟨_, rfl⟩

/-! ### Memory -/

theorem State.dataKey_lt (s : State) (a : Addr) : s.dataKey a < storageWords s.cfg.memOrg := by
  have := a.isLt
  unfold State.dataKey storageWords Config.codeWords Config.dataWords
  cases s.cfg.memOrg <;> simp <;> omega

theorem State.codeKey_lt (s : State) (a : Addr) : s.codeKey a < storageWords s.cfg.memOrg := by
  have := a.isLt
  unfold State.codeKey storageWords Config.codeWords Config.dataWords
  cases s.cfg.memOrg <;> simp <;> omega

theorem State.dataKey_injective (s : State) (a b : Addr) (h : s.dataKey a = s.dataKey b) : a = b := by
  unfold State.dataKey at h
  apply BitVec.eq_of_toNat_eq
  cases hm : s.cfg.memOrg <;> simp [hm] at h <;> omega

theorem State.dataKey_congr (s t : State) (h : t.cfg = s.cfg) (a : Addr) : t.dataKey a = s.dataKey a := by
  simp [State.dataKey, h]

theorem State.codeKey_congr (s t : State) (a : Addr) : t.codeKey a = s.codeKey a := rfl

/-- `MemRead` after `MemWrite` (R42, R43). -/
theorem State.memRead_memWrite (s : State) (a : Addr) (v : Word) (b : Addr) :
    (s.memWrite a v).memRead b = if b = a then v else s.memRead b := by
  have hk : (s.memWrite a v).dataKey b = s.dataKey b := rfl
  unfold State.memRead
  rw [hk, State.memWrite_mem, Memory.readWord_writeWord]
  by_cases h : b = a
  · simp [h]
  · have : s.dataKey b ≠ s.dataKey a := fun e => h (s.dataKey_injective b a e)
    simp [h, this]

/-- Under `harvard` a data write leaves every code word alone (R37). -/
theorem State.codeRead_memWrite_harvard (s : State) (h : s.cfg.memOrg = .harvard) (a : Addr) (v : Word) (b : Addr) :
    (s.memWrite a v).codeRead b = s.codeRead b := by
  have hne : s.codeKey b ≠ s.dataKey a := by
    have := b.isLt
    simp only [State.codeKey, State.dataKey, h, Config.codeWords]
    omega
  show (s.mem.writeWord (s.dataKey a) v).readWord (s.codeKey b) = s.mem.readWord (s.codeKey b)
  rw [Memory.readWord_writeWord, if_neg hne]

/-- Under `princeton` code and data are one array (R38). -/
theorem State.codeRead_princeton (s : State) (h : s.cfg.memOrg = .princeton) (a : Addr) : s.codeRead a = s.memRead a := by
  simp [State.codeRead, State.memRead, State.codeKey, State.dataKey, h]

/-! ### Fetch, decode, step -/

/-- The fetch phase answers an instruction exactly when the word at PC is readable and decodes to it. -/
theorem fetch_eq_run (s : State) (i : Instr) (t : State) :
    fetch s = .run i t ↔
      s.isUnwritten (.code s.pc) = false ∧ decodeWord s.cfg.reservedBits (s.codeRead s.pc) = .ok i ∧ t = s.advance := by
  unfold fetch
  cases hu : s.isUnwritten (.code s.pc) <;>
    cases hd : decodeWord s.cfg.reservedBits (s.codeRead s.pc) <;> simp [eq_comm]

/-- The three faults of the fetch phase, in their order (R100). -/
theorem fetch_eq_stop (s : State) (f : Fault) :
    fetch s = .stop f ↔
      (s.isUnwritten (.code s.pc) = true ∧ f = .unwrittenRead (.code s.pc)) ∨
      (s.isUnwritten (.code s.pc) = false ∧
        decodeWord s.cfg.reservedBits (s.codeRead s.pc) = .illegalOpcode ∧
        f = .illegalOpcode (s.codeRead s.pc) s.pc) ∨
      (s.isUnwritten (.code s.pc) = false ∧
        decodeWord s.cfg.reservedBits (s.codeRead s.pc) = .reservedEncoding ∧
        f = .reservedEncoding (s.codeRead s.pc) s.pc) := by
  unfold fetch
  cases hu : s.isUnwritten (.code s.pc) <;>
    cases hd : decodeWord s.cfg.reservedBits (s.codeRead s.pc) <;> simp [eq_comm]

theorem step_of_run (s : State) (i : Instr) (t : State) (h : fetch s = .run i t) : step s = exec i t := by
  simp [step, h]

theorem step_of_stop (s : State) (f : Fault) (h : fetch s = .stop f) : step s = .fault f := by
  simp [step, h]

/-- A step that answers a next state has fetched an instruction and run it from the advanced state. -/
theorem step_eq_next (s t : State) (h : step s = .next t) :
    ∃ i, decodeWord s.cfg.reservedBits (s.codeRead s.pc) = .ok i ∧ s.isUnwritten (.code s.pc) = false ∧
      exec i s.advance = .next t := by
  unfold step at h
  split at h
  · rename_i i u hf
    obtain ⟨hu, hd, rfl⟩ := (fetch_eq_run s i u).mp hf
    exact ⟨i, hd, hu, h⟩
  · cases h

end Sys2Proof.Machine
end

