-- ==== Sys2Proof/Laws/Flags.lean ====
section
/-! SUPPORT. One lemma for each field under each update of several status bits at once. -/

namespace Sys2Proof.Machine

/-! ### All three status bits -/

@[simp] theorem State.setFlags_ra (s : State) (z n c : Bool) :
    (s.setFlags z n c).ra = s.ra := rfl

@[simp] theorem State.setFlags_rb (s : State) (z n c : Bool) :
    (s.setFlags z n c).rb = s.rb := rfl

@[simp] theorem State.setFlags_pc (s : State) (z n c : Bool) :
    (s.setFlags z n c).pc = s.pc := rfl

@[simp] theorem State.setFlags_z (s : State) (z n c : Bool) :
    (s.setFlags z n c).z = z := rfl

@[simp] theorem State.setFlags_n (s : State) (z n c : Bool) :
    (s.setFlags z n c).n = n := rfl

@[simp] theorem State.setFlags_c (s : State) (z n c : Bool) :
    (s.setFlags z n c).c = c := rfl

@[simp] theorem State.setFlags_mem (s : State) (z n c : Bool) :
    (s.setFlags z n c).mem = s.mem := rfl

@[simp] theorem State.setFlags_unwritten (s : State) (z n c : Bool) :
    (s.setFlags z n c).unwritten = dropMarks s.unwritten [.flag .z, .flag .n, .flag .c] := by simp [State.setFlags]

@[simp] theorem State.setFlags_cfg (s : State) (z n c : Bool) :
    (s.setFlags z n c).cfg = s.cfg := rfl

@[simp] theorem State.setResultFlags_ra (s : State) (r : Word) (c : Bool) :
    (s.setResultFlags r c).ra = s.ra := rfl

@[simp] theorem State.setResultFlags_rb (s : State) (r : Word) (c : Bool) :
    (s.setResultFlags r c).rb = s.rb := rfl

@[simp] theorem State.setResultFlags_pc (s : State) (r : Word) (c : Bool) :
    (s.setResultFlags r c).pc = s.pc := rfl

@[simp] theorem State.setResultFlags_z (s : State) (r : Word) (c : Bool) :
    (s.setResultFlags r c).z = zeroOf r := rfl

@[simp] theorem State.setResultFlags_n (s : State) (r : Word) (c : Bool) :
    (s.setResultFlags r c).n = negativeOf r := rfl

@[simp] theorem State.setResultFlags_c (s : State) (r : Word) (c : Bool) :
    (s.setResultFlags r c).c = c := rfl

@[simp] theorem State.setResultFlags_mem (s : State) (r : Word) (c : Bool) :
    (s.setResultFlags r c).mem = s.mem := rfl

@[simp] theorem State.setResultFlags_unwritten (s : State) (r : Word) (c : Bool) :
    (s.setResultFlags r c).unwritten = dropMarks s.unwritten [.flag .z, .flag .n, .flag .c] := by simp [State.setResultFlags]

@[simp] theorem State.setResultFlags_cfg (s : State) (r : Word) (c : Bool) :
    (s.setResultFlags r c).cfg = s.cfg := rfl

@[simp] theorem State.logicResult_ra (s : State) (r : Word) :
    (s.logicResult r).ra = r := rfl

@[simp] theorem State.logicResult_rb (s : State) (r : Word) :
    (s.logicResult r).rb = s.rb := rfl

@[simp] theorem State.logicResult_pc (s : State) (r : Word) :
    (s.logicResult r).pc = s.pc := rfl

@[simp] theorem State.logicResult_z (s : State) (r : Word) :
    (s.logicResult r).z = zeroOf r := rfl

@[simp] theorem State.logicResult_n (s : State) (r : Word) :
    (s.logicResult r).n = negativeOf r := rfl

@[simp] theorem State.logicResult_c (s : State) (r : Word) :
    (s.logicResult r).c = false := rfl

@[simp] theorem State.logicResult_mem (s : State) (r : Word) :
    (s.logicResult r).mem = s.mem := rfl

@[simp] theorem State.logicResult_unwritten (s : State) (r : Word) :
    (s.logicResult r).unwritten = dropMarks s.unwritten [.byte .ra .low, .byte .ra .high, .flag .z, .flag .n, .flag .c] := by simp [State.logicResult]

@[simp] theorem State.logicResult_cfg (s : State) (r : Word) :
    (s.logicResult r).cfg = s.cfg := rfl

/-! ### Selected status bits -/

@[simp] theorem State.setFlagIf_z_ra (s : State) (sel b : Bool) :
    (s.setFlagIf sel .z b).ra = s.ra := by cases sel <;> rfl

@[simp] theorem State.setFlagIf_z_rb (s : State) (sel b : Bool) :
    (s.setFlagIf sel .z b).rb = s.rb := by cases sel <;> rfl

@[simp] theorem State.setFlagIf_z_pc (s : State) (sel b : Bool) :
    (s.setFlagIf sel .z b).pc = s.pc := by cases sel <;> rfl

@[simp] theorem State.setFlagIf_z_z (s : State) (sel b : Bool) :
    (s.setFlagIf sel .z b).z = if sel then b else s.z := by cases sel <;> rfl

@[simp] theorem State.setFlagIf_z_n (s : State) (sel b : Bool) :
    (s.setFlagIf sel .z b).n = s.n := by cases sel <;> rfl

@[simp] theorem State.setFlagIf_z_c (s : State) (sel b : Bool) :
    (s.setFlagIf sel .z b).c = s.c := by cases sel <;> rfl

@[simp] theorem State.setFlagIf_z_mem (s : State) (sel b : Bool) :
    (s.setFlagIf sel .z b).mem = s.mem := by cases sel <;> rfl

@[simp] theorem State.setFlagIf_z_unwritten (s : State) (sel b : Bool) :
    (s.setFlagIf sel .z b).unwritten = dropMarks s.unwritten (if sel then [.flag .z] else []) := by cases sel <;> simp [State.setFlagIf]

@[simp] theorem State.setFlagIf_z_cfg (s : State) (sel b : Bool) :
    (s.setFlagIf sel .z b).cfg = s.cfg := by cases sel <;> rfl

@[simp] theorem State.setFlagIf_n_ra (s : State) (sel b : Bool) :
    (s.setFlagIf sel .n b).ra = s.ra := by cases sel <;> rfl

@[simp] theorem State.setFlagIf_n_rb (s : State) (sel b : Bool) :
    (s.setFlagIf sel .n b).rb = s.rb := by cases sel <;> rfl

@[simp] theorem State.setFlagIf_n_pc (s : State) (sel b : Bool) :
    (s.setFlagIf sel .n b).pc = s.pc := by cases sel <;> rfl

@[simp] theorem State.setFlagIf_n_z (s : State) (sel b : Bool) :
    (s.setFlagIf sel .n b).z = s.z := by cases sel <;> rfl

@[simp] theorem State.setFlagIf_n_n (s : State) (sel b : Bool) :
    (s.setFlagIf sel .n b).n = if sel then b else s.n := by cases sel <;> rfl

@[simp] theorem State.setFlagIf_n_c (s : State) (sel b : Bool) :
    (s.setFlagIf sel .n b).c = s.c := by cases sel <;> rfl

@[simp] theorem State.setFlagIf_n_mem (s : State) (sel b : Bool) :
    (s.setFlagIf sel .n b).mem = s.mem := by cases sel <;> rfl

@[simp] theorem State.setFlagIf_n_unwritten (s : State) (sel b : Bool) :
    (s.setFlagIf sel .n b).unwritten = dropMarks s.unwritten (if sel then [.flag .n] else []) := by cases sel <;> simp [State.setFlagIf]

@[simp] theorem State.setFlagIf_n_cfg (s : State) (sel b : Bool) :
    (s.setFlagIf sel .n b).cfg = s.cfg := by cases sel <;> rfl

@[simp] theorem State.setFlagIf_c_ra (s : State) (sel b : Bool) :
    (s.setFlagIf sel .c b).ra = s.ra := by cases sel <;> rfl

@[simp] theorem State.setFlagIf_c_rb (s : State) (sel b : Bool) :
    (s.setFlagIf sel .c b).rb = s.rb := by cases sel <;> rfl

@[simp] theorem State.setFlagIf_c_pc (s : State) (sel b : Bool) :
    (s.setFlagIf sel .c b).pc = s.pc := by cases sel <;> rfl

@[simp] theorem State.setFlagIf_c_z (s : State) (sel b : Bool) :
    (s.setFlagIf sel .c b).z = s.z := by cases sel <;> rfl

@[simp] theorem State.setFlagIf_c_n (s : State) (sel b : Bool) :
    (s.setFlagIf sel .c b).n = s.n := by cases sel <;> rfl

@[simp] theorem State.setFlagIf_c_c (s : State) (sel b : Bool) :
    (s.setFlagIf sel .c b).c = if sel then b else s.c := by cases sel <;> rfl

@[simp] theorem State.setFlagIf_c_mem (s : State) (sel b : Bool) :
    (s.setFlagIf sel .c b).mem = s.mem := by cases sel <;> rfl

@[simp] theorem State.setFlagIf_c_unwritten (s : State) (sel b : Bool) :
    (s.setFlagIf sel .c b).unwritten = dropMarks s.unwritten (if sel then [.flag .c] else []) := by cases sel <;> simp [State.setFlagIf]

@[simp] theorem State.setFlagIf_c_cfg (s : State) (sel b : Bool) :
    (s.setFlagIf sel .c b).cfg = s.cfg := by cases sel <;> rfl

@[simp] theorem State.writeSelected_ra (s : State) (z n c b : Bool) :
    (s.writeSelected z n c b).ra = s.ra := by simp [State.writeSelected]

@[simp] theorem State.writeSelected_rb (s : State) (z n c b : Bool) :
    (s.writeSelected z n c b).rb = s.rb := by simp [State.writeSelected]

@[simp] theorem State.writeSelected_pc (s : State) (z n c b : Bool) :
    (s.writeSelected z n c b).pc = s.pc := by simp [State.writeSelected]

@[simp] theorem State.writeSelected_z (s : State) (z n c b : Bool) :
    (s.writeSelected z n c b).z = if z then b else s.z := by simp [State.writeSelected]

@[simp] theorem State.writeSelected_n (s : State) (z n c b : Bool) :
    (s.writeSelected z n c b).n = if n then b else s.n := by simp [State.writeSelected]

@[simp] theorem State.writeSelected_c (s : State) (z n c b : Bool) :
    (s.writeSelected z n c b).c = if c then b else s.c := by simp [State.writeSelected]

@[simp] theorem State.writeSelected_mem (s : State) (z n c b : Bool) :
    (s.writeSelected z n c b).mem = s.mem := by simp [State.writeSelected]

@[simp] theorem State.writeSelected_unwritten (s : State) (z n c b : Bool) :
    (s.writeSelected z n c b).unwritten = dropMarks s.unwritten ((selectedFlags z n c).map .flag) := by
  cases z <;> cases n <;> cases c <;> simp [State.writeSelected, selectedFlags]

@[simp] theorem State.writeSelected_cfg (s : State) (z n c b : Bool) :
    (s.writeSelected z n c b).cfg = s.cfg := by simp [State.writeSelected]

/-! ### SHR's Z and N -/

@[simp] theorem State.setShrZN_ra (s : State) (r : Word) :
    (s.setShrZN r).ra = s.ra := by
  unfold State.setShrZN; split <;> simp_all

@[simp] theorem State.setShrZN_rb (s : State) (r : Word) :
    (s.setShrZN r).rb = s.rb := by
  unfold State.setShrZN; split <;> simp_all

@[simp] theorem State.setShrZN_pc (s : State) (r : Word) :
    (s.setShrZN r).pc = s.pc := by
  unfold State.setShrZN; split <;> simp_all

@[simp] theorem State.setShrZN_z (s : State) (r : Word) :
    (s.setShrZN r).z = match s.cfg.shrZN with | .unchanged => s.z | .fromResult => zeroOf r := by
  unfold State.setShrZN; split <;> simp_all

@[simp] theorem State.setShrZN_n (s : State) (r : Word) :
    (s.setShrZN r).n = match s.cfg.shrZN with | .unchanged => s.n | .fromResult => false := by
  unfold State.setShrZN; split <;> simp_all

@[simp] theorem State.setShrZN_c (s : State) (r : Word) :
    (s.setShrZN r).c = s.c := by
  unfold State.setShrZN; split <;> simp_all

@[simp] theorem State.setShrZN_mem (s : State) (r : Word) :
    (s.setShrZN r).mem = s.mem := by
  unfold State.setShrZN; split <;> simp_all

@[simp] theorem State.setShrZN_unwritten (s : State) (r : Word) :
    (s.setShrZN r).unwritten = match s.cfg.shrZN with
      | .unchanged => s.unwritten
      | .fromResult => dropMarks s.unwritten [.flag .z, .flag .n] := by
  unfold State.setShrZN; split <;> simp_all

@[simp] theorem State.setShrZN_cfg (s : State) (r : Word) :
    (s.setShrZN r).cfg = s.cfg := by
  unfold State.setShrZN; split <;> simp_all

end Sys2Proof.Machine
end

