-- ==== Sys2Proof/Laws/Exec.lean ====
section
/-! SUPPORT. One inversion lemma for each meaning: when it answers a next state, and which one. A proof about an instruction
cites its lemma and the field lemmas of State.lean and Flags.lean; it does not unfold the meaning. -/

namespace Sys2Proof.Machine

theorem exec_ldDirect_next (r : Reg) (d : Addr) (s t : State) :
    exec (.ldDirect r d) s = .next t ↔ s.Readable [.data d] ∧ t = s.setReg r (s.memRead d) :=
  s.reading_eq_next _ _ _

theorem exec_ldImm_next (r : Reg) (b : ByteSel) (d : Byte) (s t : State) :
    exec (.ldImm r b d) s = .next t ↔ s.Readable [] ∧
      t = (s.putReg r (loadByte s.cfg.ldImmOtherByte b (s.reg r) d)).markWritten
        (loadByteMarks s.cfg.ldImmOtherByte r b) :=
  s.reading_eq_next [] _ _

theorem exec_st_next (r : Reg) (a : Addr) (s t : State) :
    exec (.st r a) s = .next t ↔ s.Readable [.reg r] ∧ t = s.memWrite a (s.reg r) :=
  s.reading_eq_next _ _ _

theorem exec_inc_next (r : Reg) (v : Byte) (s t : State) :
    exec (.inc r v) s = .next t ↔ s.Readable [.reg r] ∧
      t = (s.setReg r (s.reg r + incOperand s.cfg.incImmExt v)).setResultFlags
        (s.reg r + incOperand s.cfg.incImmExt v)
        (addCarry (s.reg r) (incOperand s.cfg.incImmExt v) (s.reg r + incOperand s.cfg.incImmExt v)) :=
  s.reading_eq_next _ _ _

theorem exec_br_next (x z n c : Bool) (a : Addr) (s t : State) :
    exec (.br x z n c a) s = .next t ↔ s.Readable (branchReads x z n c) ∧
      t = if s.branchTaken x z n c then s.setPc a else s :=
  s.reading_eq_next _ _ _

theorem exec_add_next (s t : State) :
    exec .add s = .next t ↔ s.Readable [.reg .ra, .reg .rb] ∧
      t = (s.setReg .ra (s.ra + s.rb)).setResultFlags (s.ra + s.rb) (addCarry s.ra s.rb (s.ra + s.rb)) :=
  s.reading_eq_next _ _ _

theorem exec_sub_next (s t : State) :
    exec .sub s = .next t ↔ s.Readable [.reg .ra, .reg .rb] ∧
      t = (s.setReg .ra (s.ra - s.rb)).setResultFlags (s.ra - s.rb)
        (subCarryOf s.cfg.subCarry s.ra s.rb (s.ra - s.rb)) :=
  s.reading_eq_next _ _ _

theorem exec_or_next (s t : State) :
    exec .or s = .next t ↔ s.Readable [.reg .ra, .reg .rb] ∧ t = s.logicResult (s.ra ||| s.rb) :=
  s.reading_eq_next _ _ _

theorem exec_and_next (s t : State) :
    exec .and s = .next t ↔ s.Readable [.reg .ra, .reg .rb] ∧ t = s.logicResult (s.ra &&& s.rb) :=
  s.reading_eq_next _ _ _

theorem exec_xor_next (s t : State) :
    exec .xor s = .next t ↔ s.Readable [.reg .ra, .reg .rb] ∧ t = s.logicResult (s.ra ^^^ s.rb) :=
  s.reading_eq_next _ _ _

theorem exec_shr_next (s t : State) :
    exec .shr s = .next t ↔ s.Readable [.reg .ra] ∧
      t = ((s.setReg .ra (s.ra >>> 1)).setFlag .c (s.ra.getLsbD 0)).setShrZN (s.ra >>> 1) :=
  s.reading_eq_next _ _ _

theorem exec_mov_next (s t : State) :
    exec .mov s = .next t ↔ s.Readable [.reg .ra] ∧ t = s.setReg .rb s.ra :=
  s.reading_eq_next _ _ _

theorem exec_exch_next (s t : State) :
    exec .exch s = .next t ↔ s.Readable [.reg .ra, .reg .rb] ∧ t = (s.setReg .ra s.rb).setReg .rb s.ra :=
  s.reading_eq_next _ _ _

theorem exec_cmp_next (s t : State) :
    exec .cmp s = .next t ↔ s.Readable [.reg .ra, .reg .rb] ∧
      t = s.setResultFlags (s.ra - s.rb) (subCarryOf s.cfg.subCarry s.ra s.rb (s.ra - s.rb)) :=
  s.reading_eq_next _ _ _

theorem exec_set_next (z n c : Bool) (s t : State) :
    exec (.set z n c) s = .next t ↔ s.Readable [] ∧ t = s.writeSelected z n c true :=
  s.reading_eq_next [] _ _

theorem exec_clr_next (z n c : Bool) (s t : State) :
    exec (.clr z n c) s = .next t ↔ s.Readable [] ∧ t = s.writeSelected z n c false :=
  s.reading_eq_next [] _ _

end Sys2Proof.Machine
end

