-- ==== Sys2Proof/Laws/Operands.lean ====
section
/-! SUPPORT. Bytes and sign bits as arithmetic: what proofs about LD immediate and the carry need. -/

namespace Sys2Proof.Machine

/-- A joined word as shifts and masks. -/
theorem joinBytes_eq_or (hi lo : Byte) : joinBytes hi lo = hi.zeroExtend 16 <<< 8 ||| lo.zeroExtend 16 := by
  apply BitVec.eq_of_getLsbD_eq
  intro i hi'
  simp only [joinBytes, BitVec.getLsbD_append]
  interval_cases i <;> simp

/-- The low byte in its place. -/
theorem zeroExtend_lowByte (w : Word) : (lowByte w).zeroExtend 16 = w &&& 0x00FF#16 := by
  apply BitVec.eq_of_getLsbD_eq
  intro i hi
  simp only [lowByte]
  interval_cases i <;> simp

/-- The high byte in its place. -/
theorem zeroExtend_highByte_shift (w : Word) : (highByte w).zeroExtend 16 <<< 8 = w &&& 0xFF00#16 := by
  apply BitVec.eq_of_getLsbD_eq
  intro i hi
  simp only [highByte]
  interval_cases i <;> simp

/-- The sign bit as a comparison of unsigned numbers. -/
theorem signBit_eq_decide (w : Word) : signBit w = decide (2 ^ 15 ≤ w.toNat) := by
  have h : signBit w = w.msb := by simp [signBit, BitVec.msb, BitVec.getMsbD]
  rw [h, BitVec.msb_eq_decide]

@[simp] theorem zeroOf_eq_true (r : Word) : zeroOf r = true ↔ r = 0x0000#16 := by simp [zeroOf]

end Sys2Proof.Machine
end

