-- ==== Sys2Proof/Laws/PerInstr.lean ====
section
/-! SUPPORT. The family EncodedWord: the encoder gives every instruction a word of the opcode table (spec/30_encoding.md R54,
R59), whichever way `RESERVED_BITS` is. The table's rows (WellFormed.lean) are written apart from the encoder. -/

namespace Sys2Proof.Laws

/-- A word that a row of the table accepts is well formed. -/
theorem wellFormedWord_of_row (rb : ReservedBits) (w : Word) (row : OpcodeRow) (h : row ∈ opcodeRows)
    (ha : row.accepts rb w = true) : wellFormedWord rb w = true :=
  List.any_eq_true.mpr ⟨row, h, ha⟩

/-- The word of the instruction is one of the table's. -/
def EncodedWord.Statement (i : Instr) : Prop := ∀ rb, wellFormedWord rb (encode i) = true

theorem EncodedWord.ldDirect (r : Reg) (d : Addr) : EncodedWord.Statement (.ldDirect r d) := fun rb =>
  wellFormedWord_of_row rb _ ⟨"LD", 0x0000, 0xF700, 0xF400⟩ (by decide)
    (by cases rb <;> cases r <;> decide +revert +kernel)

theorem EncodedWord.ldImm (r : Reg) (b : ByteSel) (d : Byte) : EncodedWord.Statement (.ldImm r b d) := fun rb =>
  wellFormedWord_of_row rb _ ⟨"LD", 0x0400, 0xF500, 0xF400⟩ (by decide)
    (by cases rb <;> cases r <;> cases b <;> decide +revert +kernel)

theorem EncodedWord.st (r : Reg) (a : Addr) : EncodedWord.Statement (.st r a) := fun rb =>
  wellFormedWord_of_row rb _ ⟨"ST", 0x1000, 0xF700, 0xF000⟩ (by decide)
    (by cases rb <;> cases r <;> decide +revert +kernel)

theorem EncodedWord.inc (r : Reg) (v : Byte) : EncodedWord.Statement (.inc r v) := fun rb =>
  wellFormedWord_of_row rb _ ⟨"INC", 0x2000, 0xF700, 0xF000⟩ (by decide)
    (by cases rb <;> cases r <;> decide +revert +kernel)

theorem EncodedWord.br (x z n c : Bool) (a : Addr) : EncodedWord.Statement (.br x z n c a) := fun rb =>
  wellFormedWord_of_row rb _ ⟨"BR", 0x3000, 0xF000, 0xF000⟩ (by decide)
    (by cases rb <;> decide +revert +kernel)

theorem EncodedWord.add : EncodedWord.Statement .add := fun rb => by cases rb <;> decide

theorem EncodedWord.sub : EncodedWord.Statement .sub := fun rb => by cases rb <;> decide

theorem EncodedWord.or : EncodedWord.Statement .or := fun rb => by cases rb <;> decide

theorem EncodedWord.and : EncodedWord.Statement .and := fun rb => by cases rb <;> decide

theorem EncodedWord.xor : EncodedWord.Statement .xor := fun rb => by cases rb <;> decide

theorem EncodedWord.shr : EncodedWord.Statement .shr := fun rb => by cases rb <;> decide

theorem EncodedWord.mov : EncodedWord.Statement .mov := fun rb => by cases rb <;> decide

theorem EncodedWord.exch : EncodedWord.Statement .exch := fun rb => by cases rb <;> decide

theorem EncodedWord.cmp : EncodedWord.Statement .cmp := fun rb => by cases rb <;> decide

theorem EncodedWord.set (z n c : Bool) : EncodedWord.Statement (.set z n c) := fun rb => by
  cases rb <;> cases z <;> cases n <;> cases c <;> decide

theorem EncodedWord.clr (z n c : Bool) : EncodedWord.Statement (.clr z n c) := fun rb => by
  cases rb <;> cases z <;> cases n <;> cases c <;> decide

end Sys2Proof.Laws
end

