-- ==== Sys2Proof/Tests/Slice0.lean ====
section
/-! SUPPORT. Tests of one step or one execute phase each, with the expected values of spec/95_test_vectors.md (the source of
each is named), the words of spec/30_encoding.md written out bit by bit, ill-formed words that the checks refuse, and for
each statement with hypotheses a witness that meets them. -/

namespace Sys2Proof.Tests

open Sys2Proof Sys2Proof.Machine

/-! ### Helpers -/

/-- The next state of an outcome, if it has one. -/
def nextOf : Host.Outcome State Fault Refusal → Option State
  | .next s => some s
  | .fault _ => none
  | .refused _ => none

/-- The fault of an outcome, if it has one. -/
def faultOf : Host.Outcome State Fault Refusal → Option Fault
  | .next _ => none
  | .fault f => some f
  | .refused _ => none

/-- RA, RB, PC and Z, N, C of a state. -/
structure View where
  ra : Word
  rb : Word
  pc : Addr
  z : Bool
  n : Bool
  c : Bool
  deriving DecidableEq, Repr

/-- A state's registers and status bits. -/
def view (s : State) : View := ⟨s.ra, s.rb, s.pc, s.z, s.n, s.c⟩

/-- The registers and status bits of a state at PC = 0x20 with nothing in memory. -/
def at20 (ra rb : Word) (z n c : Bool) : State :=
  { State.reset with ra := ra, rb := rb, pc := 0x20#8, z := z, n := n, c := c }

/-- What an execute phase leaves in the registers and status bits. -/
def after (i : Instr) (s : State) : Option View := (nextOf (exec i s)).map view

/-- A state whose parameters are changed. -/
def withCfg (s : State) (f : Config → Config) : State := { s with cfg := f s.cfg }

/-- The state with a code word at its PC. -/
def withWord (s : State) (w : Nat) : State := s.withFetchWord 16 w

/-- A machine under `read_faults` in which the listed things are unwritten. -/
def unwrittenState (ms : List Mark) : State :=
  { State.reset with unwritten := ms, cfg := { Config.default with resetUnspec := .readFaults } }

/-! ### Well-formedness: a word of each row, and for each check a word it refuses (R59, R61, R63, R64) -/

theorem test_rows_disjoint :
    opcodeRows.Pairwise (fun a b => a.mask &&& b.mask &&& (a.pattern ^^^ b.pattern) ≠ 0) := by decide

theorem test_rows_accept :
    [0x0080, 0x0434, 0x1810, 0x2001, 0x3C20, 0x4000, 0x5000, 0x6000, 0x7000, 0x8000, 0x9000, 0xA000, 0xB000, 0xC000, 0xD700,
      0xE200].all (wellFormedWord .fault) = true := by decide

theorem test_wf_refuses_opcode_1111 :
    wellFormedWord .fault 0xF000 = false ∧ wellFormedWord .ignore 0xFFFF = false := by decide

theorem test_wf_refuses_ld_direct_bits :
    wellFormedWord .fault 0x0200 = false ∧ wellFormedWord .fault 0x0B7F = false ∧ wellFormedWord .ignore 0x0B7F = true := by
  decide

theorem test_wf_refuses_ld_imm_bit8 :
    wellFormedWord .fault 0x0512 = false ∧ wellFormedWord .ignore 0x0512 = true := by decide

theorem test_wf_refuses_st_inc_bits :
    wellFormedWord .fault 0x1234 = false ∧ wellFormedWord .fault 0x2101 = false ∧ wellFormedWord .fault 0x2C01 = false := by
  decide

theorem test_wf_refuses_no_operand_bits :
    [0x4001, 0x5800, 0x6100, 0x7080, 0x8400, 0x9800, 0xA200, 0xB010, 0xC700].all
      (fun w => !wellFormedWord .fault w && wellFormedWord .ignore w) = true := by decide

theorem test_wf_refuses_flag_bits :
    wellFormedWord .fault 0xD801 = false ∧ wellFormedWord .fault 0xE4FF = false := by decide

/-! ### Decoding: words written out from the format rows of R54 -/

theorem test_decode_ldDirect : decodeWord .fault 0b0000100011111111#16 = .ok (.ldDirect .rb 0xFF) := by decide

theorem test_decode_ldImm : decodeWord .fault 0b0000011000010010#16 = .ok (.ldImm .ra .high 0x12) := by decide

theorem test_decode_st : decodeWord .fault 0b0001100000010000#16 = .ok (.st .rb 0x10) := by decide

theorem test_decode_inc : decodeWord .fault 0b0010000000000001#16 = .ok (.inc .ra 0x01) := by decide

theorem test_decode_br : decodeWord .fault 0b0011100101000010#16 = .ok (.br true false false true 0x42) := by decide

theorem test_decode_no_operand :
    [0b0100000000000000#16, 0b0101000000000000#16, 0b0110000000000000#16, 0b0111000000000000#16, 0b1000000000000000#16,
      0b1001000000000000#16, 0b1010000000000000#16, 0b1011000000000000#16, 0b1100000000000000#16].map (decodeWord .fault) =
    [.ok .add, .ok .sub, .ok .or, .ok .and, .ok .xor, .ok .shr, .ok .mov, .ok .exch, .ok .cmp] := by decide

theorem test_decode_set : decodeWord .fault 0b1101001000000000#16 = .ok (.set false true false) := by decide

theorem test_decode_clr : decodeWord .fault 0b1110011000000000#16 = .ok (.clr true true false) := by decide

/-- 95_test_vectors.md 2.10, the column `fault`. -/
theorem test_decode_refusals :
    [0xF000, 0xFFFF, 0x0512, 0x0200, 0x0700, 0x1234, 0x2101, 0x4001, 0xC700, 0xD801].map (decodeWord .fault) =
    [.illegalOpcode, .illegalOpcode, .reservedEncoding, .reservedEncoding, .reservedEncoding, .reservedEncoding,
      .reservedEncoding, .reservedEncoding, .reservedEncoding, .reservedEncoding] := by decide

/-- 95_test_vectors.md 2.10, the column `ignore`. -/
theorem test_decode_ignore :
    [0xF000, 0x0512, 0x0B7F, 0x1234, 0x2C01, 0xC700, 0xE4FF].map (decodeWord .ignore) =
    [.illegalOpcode, .ok (.ldImm .ra .low 0x12), .ok (.ldDirect .rb 0x7F), .ok (.st .ra 0x34), .ok (.inc .rb 1), .ok .cmp,
      .ok (.clr true false false)] := by decide

theorem test_decodeTableWord : decodeTableWord 16 0x3C20 = some (.br true true false false 0x20) ∧
    decodeTableWord 16 0xF000 = none := by decide

/-! ### One step of each instruction (values of 95_test_vectors.md) -/

/-- 2.1, row 1. -/
theorem test_ldDirect :
    after (.ldDirect .ra 0x80) ((at20 0x1234 0x5678 true false true).memWrite 0x80 0xBEEF) =
      some ⟨0xBEEF, 0x5678, 0x20, true, false, true⟩ := by decide

/-- 2.1, rows 4 and 7. -/
theorem test_ldImm :
    after (.ldImm .ra .low 0x34) (at20 0xFFFF 0 false false false) = some ⟨0xFF34, 0, 0x20, false, false, false⟩ ∧
    after (.ldImm .rb .high 0x80) (at20 0 0x0001 false false false) = some ⟨0, 0x8001, 0x20, false, false, false⟩ := by decide

/-- 2.1, rows 4 and 5 under `zero`. -/
theorem test_ldImm_zero :
    after (.ldImm .ra .low 0x34) (withCfg (at20 0xFFFF 0 false false false) (fun c => { c with ldImmOtherByte := .zero })) =
      some ⟨0x0034, 0, 0x20, false, false, false⟩ ∧
    after (.ldImm .ra .high 0x12) (withCfg (at20 0xFF34 0 false false false) (fun c => { c with ldImmOtherByte := .zero })) =
      some ⟨0x1200, 0, 0x20, false, false, false⟩ := by decide

/-- 2.1, row 9. -/
theorem test_st : (nextOf (exec (.st .ra 0x80) (at20 0xCAFE 0 true true true))).map (fun t => (t.memRead 0x80, view t)) =
    some (0xCAFE, ⟨0xCAFE, 0, 0x20, true, true, true⟩) := by decide

/-- 2.1, row 13: the word at 05 stores over itself, under `princeton` in the one array, under `harvard` in data alone. -/
theorem test_st_own_word :
    (nextOf (step (withWord (withCfg { at20 0x3009 0 false false false with pc := 0x05 }
      (fun c => { c with memOrg := .princeton })) 0x1005))).map (fun t => (t.codeRead 0x05, t.pc)) = some (0x3009, 0x06) ∧
    (nextOf (step (withWord { at20 0x3009 0 false false false with pc := 0x05 } 0x1005))).map
      (fun t => (t.codeRead 0x05, t.memRead 0x05)) = some (0x1005, 0x3009) := by decide

/-- 2.2, rows 8 (`zero`) and 4 on RB. -/
theorem test_inc :
    after (.inc .ra 0xFF) (at20 0xFF80 0 false false false) = some ⟨0x007F, 0, 0x20, false, false, true⟩ ∧
    after (.inc .rb 0x01) (at20 0x1111 0xFFFF false false false) = some ⟨0x1111, 0, 0x20, true, false, true⟩ := by decide

/-- 2.2, row 8 (`sign`). -/
theorem test_inc_sign :
    after (.inc .ra 0xFF) (withCfg (at20 0xFF80 0 false false false) (fun c => { c with incImmExt := .sign })) =
      some ⟨0xFF7F, 0, 0x20, false, true, true⟩ := by decide

/-- 2.3, full steps 2 and 3: BZ with Z = 0 although N and C are 1, and with Z = 1. -/
theorem test_br_bz :
    (nextOf (step (withWord (at20 0 0 false true true) 0x3442))).map (·.pc) = some 0x21 ∧
    (nextOf (step (withWord (at20 0 0 true false false) 0x3442))).map (·.pc) = some 0x42 := by decide

/-- 2.3, full steps 10 and 12: the wrap of a branch not taken at FF, and N and C selected for clear with both set. -/
theorem test_br_not_taken :
    (nextOf (step (withWord { at20 0 0 false false false with pc := 0xFF } 0x3180))).map (·.pc) = some 0x00 ∧
    (nextOf (step (withWord (at20 0 0 false true true) 0x3B80))).map (·.pc) = some 0x21 := by decide

/-- 2.4, rows 3 and 5. -/
theorem test_add :
    after .add (at20 0x7FFF 0x0001 false false true) = some ⟨0x8000, 0x0001, 0x20, false, true, false⟩ ∧
    after .add (at20 0x8000 0x8000 false false false) = some ⟨0x0000, 0x8000, 0x20, true, false, true⟩ := by decide

/-- 2.5, row 5 under the three values of `SUB_CARRY`. -/
theorem test_sub :
    [SubCarry.notBorrow, .borrow, .table1Literal].map (fun k =>
      after .sub (withCfg (at20 0x8000 0x0001 false false false) (fun c => { c with subCarry := k }))) =
    [some ⟨0x7FFF, 1, 0x20, false, false, true⟩, some ⟨0x7FFF, 1, 0x20, false, false, false⟩,
      some ⟨0x7FFF, 1, 0x20, false, false, true⟩] := by decide

/-- 2.6, row 8, with C set before: C is cleared. -/
theorem test_or : after .or (at20 0x1234 0 true true true) = some ⟨0x1234, 0, 0x20, false, false, false⟩ := by decide

/-- 2.6, row 4. -/
theorem test_and : after .and (at20 0x1234 0xFFFF true true true) = some ⟨0x1234, 0xFFFF, 0x20, false, false, false⟩ := by
  decide

/-- 2.6, row 4. -/
theorem test_xor : after .xor (at20 0x1234 0xFFFF false false true) = some ⟨0xEDCB, 0xFFFF, 0x20, false, true, false⟩ := by
  decide

/-- 2.7, row 2 with ZNC = 010 before, under both values of `SHR_ZN`. -/
theorem test_shr :
    after .shr (at20 0x0001 7 false true false) = some ⟨0x0000, 7, 0x20, false, true, true⟩ ∧
    after .shr (withCfg (at20 0x0001 7 false true false) (fun c => { c with shrZN := .fromResult })) =
      some ⟨0x0000, 7, 0x20, true, false, true⟩ := by decide

/-- 2.7, row 6: the shift is logical. -/
theorem test_shr_logical : after .shr (at20 0x8003 7 true true false) = some ⟨0x4001, 7, 0x20, true, true, true⟩ := by decide

/-- 2.8, row 1. -/
theorem test_mov : after .mov (at20 0x1234 0x5678 true false true) = some ⟨0x1234, 0x1234, 0x20, true, false, true⟩ := by
  decide

/-- 2.8, row 3. -/
theorem test_exch : after .exch (at20 0x1234 0x5678 false true false) = some ⟨0x5678, 0x1234, 0x20, false, true, false⟩ := by
  decide

/-- 2.5, row 2 as a CMP. -/
theorem test_cmp : after .cmp (at20 0x0003 0x0005 true false false) = some ⟨0x0003, 0x0005, 0x20, false, true, false⟩ := by
  decide

/-- 2.9, row 5. -/
theorem test_set : after (.set true false true) (at20 0 0 false true false) = some ⟨0, 0, 0x20, true, true, true⟩ := by decide

/-- 2.9, row 12. -/
theorem test_clr : after (.clr true true false) (at20 0 0 true true true) = some ⟨0, 0, 0x20, false, false, true⟩ := by decide

/-! ### Reset, faults and marks -/

/-- 2.11, row 1, and row 5: with nothing in memory the first step is `LD A, D, 0x00`. -/
theorem test_reset : State.reset.pc = 0x00 ∧ (nextOf (step State.reset)).map view = some ⟨0, 0, 0x01, false, false, false⟩ := by
  decide

/-- 2.10, rows 1 and 11: the word and its address. -/
theorem test_step_faults :
    faultOf (step (withWord (at20 0 0 false false false) 0xF000)) = some (.illegalOpcode 0xF000 0x20) ∧
    faultOf (step (withWord (at20 0 0 false false false) 0x4001)) = some (.reservedEncoding 0x4001 0x20) := by decide

/-- 2.10, the last paragraph: ST of RA whose high byte nothing has written faults, of RA written whole does not. -/
theorem test_unwritten_register :
    faultOf (exec (.st .ra 0x80) (unwrittenState [.byte .ra .high])) = some (.unwrittenRead (.reg .ra)) ∧
    faultOf (exec (.st .ra 0x80) (unwrittenState [.byte .rb .high])) = none := by decide

/-- The same paragraph: LD immediate reads nothing and marks its own byte as written. -/
theorem test_ldImm_marks :
    (nextOf (exec (.ldImm .ra .low 1) (unwrittenState [.byte .ra .low, .byte .ra .high]))).map (·.unwritten) =
      some [.byte .ra .high] := by decide

/-- The same paragraph: BN after SET Z faults on N; BR, the word 3800 and SET do not fault. -/
theorem test_branch_reads :
    faultOf (exec (.br false false true false 0) (unwrittenState [.flag .n, .flag .c])) = some (.unwrittenRead (.flag .n)) ∧
    faultOf (exec (.br false false false false 0) (unwrittenState [.flag .z, .flag .n, .flag .c])) = none ∧
    faultOf (exec (.br true false false false 0) (unwrittenState [.flag .z, .flag .n, .flag .c])) = none ∧
    faultOf (exec (.set true true true) (unwrittenState [.flag .z, .flag .n, .flag .c])) = none := by decide

/-- R100: an unwritten code word is reported before its opcode 1111. -/
theorem test_unwritten_fetch :
    faultOf (step { withWord State.reset 0xF000 with
      unwritten := [.word 0], cfg := { Config.default with resetUnspec := .readFaults } }) =
      some (.unwrittenRead (.code 0x00)) := by decide

/-! ### Witnesses: for each statement with hypotheses, a state and operands that meet all of them -/

theorem witness_IgnoreDropsReservedBits : opcodeOf 0x4001#16 ≠ 0xF#4 := by decide

theorem witness_StepRunsDecoded :
    (withWord State.reset 0x4000).isUnwritten (.code 0x00) = false ∧
    decodeWord .fault ((withWord State.reset 0x4000).codeRead 0x00) = .ok .add := by decide

theorem witness_FetchWrapsAtEnd :
    (withWord { State.reset with pc := 0xFF } 0xA000).pc = 0xFF ∧
    (withWord { State.reset with pc := 0xFF } 0xA000).isUnwritten (.code 0xFF) = false ∧
    decodeWord .fault ((withWord { State.reset with pc := 0xFF } 0xA000).codeRead 0xFF) = .ok .mov := by decide

theorem witness_PcAfterStep_branch :
    (∃ t, step (withWord { State.reset with pc := 0xFF } 0x30FF) = .next t) ∧
    decodeWord .fault ((withWord { State.reset with pc := 0xFF } 0x30FF).codeRead 0xFF) =
      .ok (.br false false false false 0xFF) := ⟨⟨_, rfl⟩, by decide⟩

theorem witness_PcAfterStep_other :
    (∃ t, step (withWord { State.reset with pc := 0xFF } 0xA000) = .next t) ∧
    decodeWord .fault ((withWord { State.reset with pc := 0xFF } 0xA000).codeRead 0xFF) = .ok .mov :=
  ⟨⟨_, rfl⟩, by decide⟩

theorem witness_IllegalOpcodeExactly :
    (withWord State.reset 0xFFFF).isUnwritten (.code 0x00) = false ∧
    ((withWord State.reset 0xFFFF).codeRead 0x00).extractLsb' 12 4 = 0xF#4 := by decide

theorem witness_ReservedEncodingExactly :
    (withWord State.reset 0xE800).isUnwritten (.code 0x00) = false ∧
    faultOf (step (withWord State.reset 0xE800)) = some (.reservedEncoding 0xE800 0x00) := by decide

theorem witness_FaultNamesFetchedWord :
    step (withWord { State.reset with pc := 0xFF } 0xF000) = .fault (.illegalOpcode 0xF000 0xFF) ∧
    step (withWord { State.reset with pc := 0x00 } 0x4001) = .fault (.reservedEncoding 0x4001 0x00) := ⟨rfl, rfl⟩

theorem witness_UnwrittenFetchFirst : (unwrittenState [.word 0]).isUnwritten (.code 0x00) = true := by decide

theorem witness_StepFaultsOnlyOnBadWords :
    (withWord State.reset 0xD801).cfg.resetUnspec = .anyValue ∧
    wellFormedWord .fault ((withWord State.reset 0xD801).codeRead 0x00) = false := by decide

theorem witness_ExecCompletesExactly_readable :
    (unwrittenState [.byte .rb .low]).Readable (instrReads .mov) ∧ State.reset.cfg.resetUnspec = .anyValue := by decide

theorem witness_ExecCompletesExactly_fault :
    exec .add (unwrittenState [.byte .rb .low]) = .fault (.unwrittenRead (.reg .rb)) := rfl

theorem witness_MarksAfterExecute : ∃ t, exec .mov (unwrittenState [.byte .rb .low, .flag .z]) = .next t := ⟨_, rfl⟩

theorem witness_LdDirectLoadsWord : State.reset.Readable [.data 0xFF] := by decide

theorem witness_register_readable : (unwrittenState [.flag .z]).Readable [.reg .ra, .reg .rb] ∧
    State.reset.Readable [.reg .ra] ∧ State.reset.Readable [.reg .rb] := by decide

theorem witness_OnlyStWritesMemory :
    (∃ t, exec (.ldDirect .ra 0x00) State.reset = .next t) ∧ ∀ r a, Instr.ldDirect .ra 0x00 ≠ .st r a :=
  ⟨⟨_, rfl⟩, fun _ _ => Instr.noConfusion⟩

theorem witness_LoadSeesLatestStore :
    (∃ t u, exec (.st .ra 0xFF) State.reset = .next t ∧ exec (.ldDirect .rb 0xFF) t = .next u) ∧
    (∃ t u, exec (.st .ra 0xFF) State.reset = .next t ∧ exec (.ldDirect .rb 0x00) t = .next u) :=
  ⟨⟨_, _, rfl, rfl⟩, ⟨_, _, rfl, rfl⟩⟩

theorem witness_PrincetonFetchSeesStore :
    (withCfg State.reset (fun c => { c with memOrg := .princeton })).cfg.memOrg = .princeton ∧
    ∃ t, exec (.st .ra 0x00) (withCfg State.reset (fun c => { c with memOrg := .princeton })) = .next t :=
  ⟨rfl, ⟨_, rfl⟩⟩

theorem witness_HarvardCodeNeverChanges :
    State.reset.cfg.memOrg = .harvard ∧ ∃ t, Reaches State.reset t ∧ t ≠ State.reset :=
  ⟨rfl, ⟨_, Reaches.tail Reaches.refl rfl, by decide⟩⟩

theorem witness_TwoByteLoadsBuildConstant :
    State.reset.cfg.ldImmOtherByte = .preserve ∧
    (∃ t u, exec (.ldImm .rb .low ((0x1234#16).extractLsb' 0 8)) State.reset = .next t ∧
      exec (.ldImm .rb .high ((0x1234#16).extractLsb' 8 8)) t = .next u) ∧
    (∃ t u, exec (.ldImm .rb .high ((0x1234#16).extractLsb' 8 8)) State.reset = .next t ∧
      exec (.ldImm .rb .low ((0x1234#16).extractLsb' 0 8)) t = .next u) :=
  ⟨rfl, ⟨_, _, rfl, rfl⟩, ⟨_, _, rfl, rfl⟩⟩

theorem witness_BrBranches :
    (unwrittenState [.flag .n]).Readable (branchReads false true false true) ∧
    (unwrittenState [.flag .z, .flag .n, .flag .c]).Readable (branchReads true true true true) := by decide

theorem witness_NamedBranches :
    State.reset.cfg.resetUnspec = .anyValue ∧
    ((0x3000#16, true) : Word × Bool) ∈ [(0x3000#16, true), (0x3F00#16, true), (0x3400#16, State.reset.z),
      (0x3200#16, State.reset.n), (0x3100#16, State.reset.c), (0x3C00#16, !State.reset.z), (0x3A00#16, !State.reset.n),
      (0x3900#16, !State.reset.c), (0x3800#16, false)] := by decide

theorem witness_CarryTable : ∃ t, exec .add (at20 0xFFFF 0x0001 false false false) = .next t := ⟨_, rfl⟩

theorem witness_CarryTableIsCarryOut :
    (0x0000#16 : Word) = BitVec.ofNat 16 ((0xFFFF#16).toNat + (0x0000#16).toNat + true.toNat) := by decide

theorem witness_SubCarry_values :
    [SubCarry.notBorrow, .borrow, .table1Literal].all (fun k =>
      (withCfg (at20 0 0xFFFF false false false) (fun c => { c with subCarry := k })).cfg.subCarry == k) = true ∧
    (at20 0 0xFFFF false false false).Readable [.reg .ra, .reg .rb] := by decide

theorem witness_CmpThenSubAgree :
    ∃ t u, exec .cmp (at20 0 0xFFFF false false false) = .next t ∧ exec .sub t = .next u := ⟨_, _, rfl, rfl⟩

theorem witness_LogicOperations :
    (at20 0xAAAA 0x5555 false false true).Readable [.reg .ra, .reg .rb] ∧
    (Instr.or = .or ∧ (fun a b : Bool => a || b) = fun a b => a || b) ∧
    (Instr.and = .and ∧ (fun a b : Bool => a && b) = fun a b => a && b) ∧
    (Instr.xor = .xor ∧ (fun a b : Bool => a ^^ b) = fun a b => a ^^ b) :=
  ⟨by decide, ⟨rfl, rfl⟩, ⟨rfl, rfl⟩, ⟨rfl, rfl⟩⟩

theorem witness_ShrShifts :
    (at20 1 0 false false false).Readable [.reg .ra] ∧ (at20 1 0 false false false).cfg.shrZN = .unchanged ∧
    (withCfg (at20 1 0 false false false) (fun c => { c with shrZN := .fromResult })).cfg.shrZN = .fromResult := by decide

theorem witness_ShiftLeftIdiom :
    ∃ t u, exec .mov (at20 0x8000 0 false false false) = .next t ∧ exec .add t = .next u := ⟨_, _, rfl, rfl⟩

theorem witness_SetSets_ClrClears :
    (0xD800#16 : Word).extractLsb' 12 4 = 0xD#4 ∧ (0xE0FF#16 : Word).extractLsb' 12 4 = 0xE#4 := by decide

theorem witness_StatusBitsKept :
    (∃ t, exec (.ldDirect .ra 0) State.reset = .next t) ∧ (∃ t, exec (.ldImm .ra .low 0) State.reset = .next t) ∧
    (∃ t, exec (.st .rb 0) State.reset = .next t) ∧ (∃ t, exec (.br true true true true 0) State.reset = .next t) ∧
    (∃ t, exec .mov State.reset = .next t) ∧ (∃ t, exec .exch State.reset = .next t) :=
  ⟨⟨_, rfl⟩, ⟨_, rfl⟩, ⟨_, rfl⟩, ⟨_, rfl⟩, ⟨_, rfl⟩, ⟨_, rfl⟩⟩

/-- A launch image that names the code word at 0x00 and the data word at 0xFF. -/
def smallImage : LaunchImage where
  code := fun a => if a = 0x00#8 then some 0x10FF#16 else none
  data := fun a => if a = 0xFF#8 then some 0xBEEF#16 else none

theorem witness_LaunchFetchesAtZero :
    (State.launch Config.default smallImage 1 2 true true true).isUnwritten (.code 0x00) = false ∧
    decodeWord .fault ((State.launch Config.default smallImage 1 2 true true true).codeRead 0x00) =
      .ok (.st .ra 0xFF) := by decide +kernel

theorem witness_LaunchHoldsImage :
    smallImage.code 0x00 = some 0x10FF ∧ Config.default.memOrg = .harvard ∧ smallImage.data 0xFF = some 0xBEEF := by decide

theorem witness_StepKeepsInv : State.reset.Inv ∧ ∃ t, step State.reset = .next t :=
  ⟨⟨rfl, rfl, List.nil_sublist _, fun _ => rfl⟩, ⟨_, rfl⟩⟩

theorem witness_SelfBranchIsFixedPoint :
    (withWord (at20 0 0 false false false) 0x3020).isUnwritten (.code 0x20) = false ∧
    (withWord (at20 0 0 false false false) 0x3020).selfBranch = true ∧
    (withWord (at20 0 0 false false false) 0x3F20).selfBranch = true := by decide

theorem witness_FixedPointIsBranchToItself :
    step (withWord (at20 0 0 true false false) 0x3420) = .next (withWord (at20 0 0 true false false) 0x3420) := rfl

theorem witness_ReadFaultsSimulates :
    Agree (unwrittenState [.flag .z]) { State.reset with z := true } ∧ ∃ t, step (unwrittenState [.flag .z]) = .next t := by
  refine ⟨⟨rfl, rfl, rfl, fun _ _ _ => rfl, fun f hf => ?_, fun _ _ => rfl⟩, ⟨_, rfl⟩⟩
  cases f
  · exact absurd (by decide) hf
  · rfl
  · rfl

theorem witness_LaunchesAgree :
    (∀ a w, LaunchImage.empty.code a = some w → smallImage.code a = some w) ∧
    (∀ a w, LaunchImage.empty.data a = some w → smallImage.data a = some w) ∧
    (∀ a w, smallImage.code a = some w → smallImage.code a = some w) :=
  ⟨fun _ _ h => (by cases h), fun _ _ h => (by cases h), fun _ _ h => h⟩

end Sys2Proof.Tests
end

section
/-! PROOFS. The fetch phase's increment of PC (spec/10_state.md R20, R21) and Table 1 (R27). -/

namespace Sys2Proof.Machine

/-! ### The fetch phase -/

/-- Incrementing in the 8-bit type of addresses is R21's increment modulo 2^8. -/
theorem addr_add_one_eq_ofNat (a : Addr) : a + 1 = BitVec.ofNat 8 ((a.toNat + 1) % 2 ^ 8) := by
  apply BitVec.eq_of_toNat_eq
  simp [BitVec.toNat_add]

theorem addr_last_add_one : (0xFF#8 : Addr) + 1 = 0x00#8 := by decide

/-- A readable code word that decodes is executed from the advanced state (R20, R23). -/
theorem step_of_decoded {s : State} {i : Instr} (hread : s.isUnwritten (.code s.pc) = false)
    (hdec : decodeWord s.cfg.reservedBits (s.codeRead s.pc) = .ok i) : step s = exec i s.advance :=
  step_of_run s i s.advance ((fetch_eq_run s i s.advance).mpr ⟨hread, hdec, rfl⟩)

/-- Settles O6: the fetch answers the decoded instruction with the advanced state. -/
theorem stepRunsDecoded : Obligations.StepRunsDecoded :=
  fun _ _ hread hdec => step_of_decoded hread hdec

/-- Settles O7: O6's PC, as a number modulo 2^8 and at the last address. -/
theorem fetchWrapsAtEnd : Obligations.FetchWrapsAtEnd := by
  intro s i hread hdec
  have hstep : step s = exec i { s with pc := s.pc + 1 } := stepRunsDecoded s i hread hdec
  constructor
  · rw [hstep, addr_add_one_eq_ofNat]
  · intro hpc
    rw [hstep, hpc, addr_last_add_one]

/-! ### The carry -/

/-- Table 1 as a formula (R27). -/
theorem table1_eq_formula (a b r : Bool) : table1 a b r = ((a && b) || ((a || b) && !r)) := by
  cases a <;> cases b <;> cases r <;> rfl

/-- ADD writes to C what Table 1 says of the sign bits of its operands and result (R27, R80). -/
theorem exec_add_carry {s t : State} (h : exec .add s = .next t) :
    t.c = table1 (signBit s.ra) (signBit s.rb) (signBit t.ra) := by
  obtain ⟨-, rfl⟩ := (exec_add_next s t).mp h
  simp [addCarry]

/-- Settles O28: the rows are Table 1's own, the formula agrees on all eight, and ADD's carry is `table1`. -/
theorem carryTable : Obligations.CarryTable :=
  ⟨rfl, table1_eq_formula, fun _ _ h => exec_add_carry h⟩

end Sys2Proof.Machine
end

section
/-! PROOFS. The round trip of the encoder and the decoder (spec/30_encoding.md R54, R55, R66). -/

namespace Sys2Proof

/-! ### A word from its fields -/

/-- The word with the given opcode, bits 11 to 8 and low field: what `word_eq_fields` takes apart (R54). -/
def formatWord (op : BitVec 4) (b11 b10 b9 b8 : Bool) (low : BitVec 8) : Word :=
  op ++ BitVec.ofBool b11 ++ BitVec.ofBool b10 ++ BitVec.ofBool b9 ++ BitVec.ofBool b8 ++ low

theorem eq_formatWord (w : Word) :
    w = formatWord (opcodeOf w) (w.getLsbD 11) (w.getLsbD 10) (w.getLsbD 9) (w.getLsbD 8) (lowField w) :=
  word_eq_fields w

section
variable (op : BitVec 4) (b11 b10 b9 b8 : Bool) (low : BitVec 8)

theorem getLsbD_formatWord (i : Nat) :
    (formatWord op b11 b10 b9 b8 low).getLsbD i =
      if i < 8 then low.getLsbD i else if i = 8 then b8 else if i = 9 then b9 else if i = 10 then b10
      else if i = 11 then b11 else op.getLsbD (i - 12) := by
  simp only [formatWord, BitVec.getLsbD_append, BitVec.getLsbD_ofBool]
  grind

@[simp] theorem getElem_formatWord (i : Nat) (hi : i < 16) :
    (formatWord op b11 b10 b9 b8 low)[i] =
      if i < 8 then low.getLsbD i else if i = 8 then b8 else if i = 9 then b9 else if i = 10 then b10
      else if i = 11 then b11 else op.getLsbD (i - 12) := by
  rw [← BitVec.getLsbD_eq_getElem, getLsbD_formatWord]

@[simp] theorem opcodeOf_formatWord : opcodeOf (formatWord op b11 b10 b9 b8 low) = op := by
  apply BitVec.eq_of_getLsbD_eq
  intro i hi
  interval_cases i <;> simp [opcodeOf]

@[simp] theorem lowField_formatWord : lowField (formatWord op b11 b10 b9 b8 low) = low :=
  BitVec.extractLsb'_append_eq_right

@[simp] theorem regField_formatWord (r : Reg) :
    regField (formatWord op (decide (r = .rb)) b10 b9 b8 low) = r := by
  cases r <;> simp [regField]

@[simp] theorem byteField_formatWord (b : ByteSel) :
    byteField (formatWord op b11 b10 (decide (b = .high)) b8 low) = b := by
  cases b <;> simp [byteField]

end

/-! ### The encoder's words by their fields -/

theorem encode_ldDirect (r : Reg) (d : Addr) :
    encode (.ldDirect r d) = formatWord 0x0#4 (decide (r = .rb)) false false false d := by
  cases r <;> rfl

theorem encode_ldImm (r : Reg) (b : ByteSel) (d : Byte) :
    encode (.ldImm r b d) = formatWord 0x0#4 (decide (r = .rb)) true (decide (b = .high)) false d := by
  cases r <;> cases b <;> rfl

theorem encode_st (r : Reg) (a : Addr) :
    encode (.st r a) = formatWord 0x1#4 (decide (r = .rb)) false false false a := by
  cases r <;> rfl

theorem encode_inc (r : Reg) (v : Byte) :
    encode (.inc r v) = formatWord 0x2#4 (decide (r = .rb)) false false false v := by
  cases r <;> rfl

theorem encode_br (x z n c : Bool) (a : Addr) : encode (.br x z n c a) = formatWord 0x3#4 x z n c a := by
  cases x <;> cases z <;> cases n <;> cases c <;> rfl

theorem encode_set (z n c : Bool) : encode (.set z n c) = formatWord 0xD#4 false z n c 0x00#8 := by
  cases z <;> cases n <;> cases c <;> rfl

theorem encode_clr (z n c : Bool) : encode (.clr z n c) = formatWord 0xE#4 false z n c 0x00#8 := by
  cases z <;> cases n <;> cases c <;> rfl

/-! ### The decoder on the encoder's words -/

/-- The dispatch answers an instruction only for an assigned opcode (R61, R66). -/
theorem opcodeOf_ne_of_instrOf_eq_ok {w : Word} {i : Instr} (h : instrOf w = .ok i) : opcodeOf w ≠ 0xF#4 := by
  intro hop
  simp [instrOf, hop] at h

/-- With its fixed-zero bits 0, a word that the dispatch knows decodes, whatever `RESERVED_BITS` is (R63, R66). -/
theorem decodeWord_of_instrOf {w : Word} {i : Instr} (hzero : w &&& zeroMask w = 0x0000#16) (h : instrOf w = .ok i)
    (rb : ReservedBits) : decodeWord rb w = .ok i := by
  simp [decodeWord, opcodeOf_ne_of_instrOf_eq_ok h, hzero, h]

theorem instrOf_encode (i : Instr) : instrOf (encode i) = .ok i := by
  cases i with
  | ldDirect r d => simp [encode_ldDirect, instrOf]
  | ldImm r b d => simp [encode_ldImm, instrOf]
  | st r a => simp [encode_st, instrOf]
  | inc r v => simp [encode_inc, instrOf]
  | br x z n c a => simp [encode_br, instrOf]
  | set z n c => simp [encode_set, instrOf]
  | clr z n c => simp [encode_clr, instrOf]
  | add | sub | or | and | xor | shr | mov | exch | cmp => rfl

/-- The encoder leaves every fixed-zero bit of the format 0 (R59). -/
theorem encode_and_zeroMask (i : Instr) : encode i &&& zeroMask (encode i) = 0x0000#16 := by
  cases i with
  | ldDirect r d => simp [encode_ldDirect, zeroMask, and_0300_eq_zero]
  | ldImm r b d => simp [encode_ldImm, zeroMask, and_0100_eq_zero]
  | st r a => simp [encode_st, zeroMask, and_0700_eq_zero]
  | inc r v => simp [encode_inc, zeroMask, and_0700_eq_zero]
  | br x z n c a => simp [encode_br, zeroMask]
  | set z n c => simp [encode_set, zeroMask, and_08FF_eq_zero]
  | clr z n c => simp [encode_clr, zeroMask, and_08FF_eq_zero]
  | add | sub | or | and | xor | shr | mov | exch | cmp => rfl

/-- Settles O1: the encoder's words have their fixed-zero bits 0, and the dispatch reads their fields back. -/
theorem decodeEncode : Obligations.DecodeEncode :=
  fun rb i => decodeWord_of_instrOf (encode_and_zeroMask i) (instrOf_encode i) rb

theorem decodeWord_of_eq_encode {rb : ReservedBits} {w : Word} {i : Instr} (h : w = encode i) : decodeWord rb w = .ok i :=
  h ▸ decodeEncode rb i

/-- Settles O5: each of the nine words is its instruction's encoding, so O1 decodes it. -/
theorem sampleWordsDecode : Obligations.SampleWordsDecode :=
  ⟨decodeWord_of_eq_encode rfl, decodeWord_of_eq_encode rfl, decodeWord_of_eq_encode rfl, decodeWord_of_eq_encode rfl,
    decodeWord_of_eq_encode rfl, decodeWord_of_eq_encode rfl, decodeWord_of_eq_encode rfl, decodeWord_of_eq_encode rfl,
    decodeWord_of_eq_encode rfl⟩

end Sys2Proof
end

section
/-! PROOFS. BR: its word, its condition and its effect (spec/42_br.md R77). -/

namespace Sys2Proof.Machine

/-! ### The word -/

/-- A bit of a mask that stands in a word only if it is selected. -/
theorem getLsbD_ite_zero (b : Bool) (mask : Word) (i : Nat) :
    (if b then mask else 0#16).getLsbD i = (b && mask.getLsbD i) := by
  cases b <;> simp

/-- R77's word, an OR of the opcode, the selected bits and the target, is the encoder's. -/
theorem or_fields_eq_encode_br (x z n c : Bool) (a : Addr) :
    0x3000#16 ||| (if x then 0x0800#16 else 0#16) ||| (if z then 0x0400#16 else 0#16) |||
      (if n then 0x0200#16 else 0#16) ||| (if c then 0x0100#16 else 0#16) ||| a.zeroExtend 16 =
    encode (.br x z n c a) := by
  rw [encode_br]
  apply BitVec.eq_of_getLsbD_eq
  intro i hi
  rw [getLsbD_formatWord]
  simp only [BitVec.getLsbD_or, getLsbD_ite_zero]
  interval_cases i <;> simp

/-! ### The condition -/

/-- The X = 0 arm of R77: no bit selected, or a selected status bit is 1. -/
theorem State.branchTaken_x_false_iff (s : State) (z n c : Bool) :
    s.branchTaken false z n c = true ↔
      (z = false ∧ n = false ∧ c = false) ∨ (z = true ∧ s.z = true) ∨ (n = true ∧ s.n = true) ∨
        (c = true ∧ s.c = true) := by
  simp [State.branchTaken, branchAlways, flagMeets, or_assoc, and_assoc]

/-- The X = 1 arm of R77: every bit selected, or a selected status bit is 0. -/
theorem State.branchTaken_x_true_iff (s : State) (z n c : Bool) :
    s.branchTaken true z n c = true ↔
      (z = true ∧ n = true ∧ c = true) ∨ (z = true ∧ s.z = false) ∨ (n = true ∧ s.n = false) ∨
        (c = true ∧ s.c = false) := by
  simp [State.branchTaken, branchAlways, flagMeets, or_assoc, and_assoc]

/-! ### The effect -/

/-- BR with readable status bits writes PC and nothing else. -/
theorem exec_br_of_readable {x z n c : Bool} {s : State} (hread : s.Readable (branchReads x z n c)) (a : Addr) :
    exec (.br x z n c a) s = .next { s with pc := if s.branchTaken x z n c then a else s.pc } := by
  refine (exec_br_next x z n c a s _).mpr ⟨hread, ?_⟩
  cases s.branchTaken x z n c with
  | false => rfl
  | true => rfl

/-- Settles O25: R77's word is the encoding that O1 decodes, and `branchTaken` is R77's condition for each X. -/
theorem brBranches : Obligations.BrBranches := by
  refine ⟨fun rb x z n c a => decodeWord_of_eq_encode (or_fields_eq_encode_br x z n c a), ?_⟩
  intro x z n c a s hread
  refine ⟨s.branchTaken x z n c, ?_, exec_br_of_readable hread a⟩
  cases x with
  | false => simpa using s.branchTaken_x_false_iff z n c
  | true => simpa using s.branchTaken_x_true_iff z n c

end Sys2Proof.Machine
end

section
/-! PROOFS. The ALU instructions on RA and RB: ADD and the bitwise operations (spec/43_alu.md R80, R82 to R84). -/

namespace Sys2Proof.Machine

/-! ### Status bits of a result -/

theorem zeroOf_iff_toNat_eq_zero (r : Word) : zeroOf r = true ↔ r.toNat = 0 := by
  rw [zeroOf_eq_true, BitVec.toNat_eq, BitVec.toNat_ofNat, Nat.zero_mod]

theorem zeroOf_iff_bits_false (r : Word) : zeroOf r = true ↔ ∀ k, k < 16 → r.getLsbD k = false := by
  rw [zeroOf_eq_true]
  constructor
  · rintro rfl k -
    exact BitVec.getLsbD_zero
  · intro hbits
    exact BitVec.eq_of_getLsbD_eq fun k hk => (hbits k hk).trans BitVec.getLsbD_zero.symm

/-- Table 1 on the sign bits of the operands and of their sum with a carry-in is the carry out of bit 15 (R27). -/
theorem table1_signBit_iff_carryOut {a b r : Word} {cin : Bool}
    (hr : r = BitVec.ofNat 16 (a.toNat + b.toNat + cin.toNat)) :
    table1 (signBit a) (signBit b) (signBit r) = true ↔ 2 ^ 16 ≤ a.toNat + b.toNat + cin.toNat := by
  have hsum : r.toNat = (a.toNat + b.toNat + cin.toNat) % 2 ^ 16 := by rw [hr, BitVec.toNat_ofNat]
  have ha := a.isLt
  have hb := b.isLt
  have hcin := cin.toNat_le
  simp only [table1_eq_formula, signBit_eq_decide, Bool.or_eq_true, Bool.and_eq_true, Bool.not_eq_true',
    decide_eq_true_eq, decide_eq_false_iff_not]
  omega

theorem addCarry_iff_carryOut (a b : Word) : addCarry a b (a + b) = true ↔ 2 ^ 16 ≤ a.toNat + b.toNat :=
  table1_signBit_iff_carryOut (cin := false) (BitVec.add_def a b)

/-! ### The frame -/

/-- A result in RA with its status bits leaves RB, PC, memory and the parameters as they were. -/
theorem State.setReg_ra_setResultFlags_frame {s t : State} {r : Word} {c : Bool}
    (ht : t = (s.setReg .ra r).setResultFlags r c) :
    t = { s with ra := t.ra, z := t.z, n := t.n, c := t.c, unwritten := t.unwritten } := by
  subst ht
  apply State.eq_of_fields <;> simp

/-! ### ADD -/

/-- Settles O27: 0x4000 is ADD's encoding, RA becomes the 16-bit sum, and Table 1 is that sum's carry out. -/
theorem addAdds : Obligations.AddAdds := by
  refine ⟨fun rb => decodeWord_of_eq_encode rfl, fun s hread => ?_⟩
  refine ⟨_, (exec_add_next s _).mpr ⟨hread, rfl⟩, ?sum, ?zero, rfl, ?table, ?carry,
    State.setReg_ra_setResultFlags_frame rfl⟩
  case sum => exact BitVec.toNat_add s.ra s.rb
  case zero => exact zeroOf_iff_toNat_eq_zero (s.ra + s.rb)
  case table => exact table1_eq_formula (signBit s.ra) (signBit s.rb) (signBit (s.ra + s.rb))
  case carry => exact addCarry_iff_carryOut s.ra s.rb

/-! ### OR, AND and XOR -/

/-- Each bitwise instruction puts into RA the word whose bits are its operation's on the bits of RA and RB. -/
theorem exec_logic_of_readable {i : Instr} {op : Bool → Bool → Bool}
    (hop : (i = .or ∧ op = fun a b => a || b) ∨ (i = .and ∧ op = fun a b => a && b) ∨ (i = .xor ∧ op = fun a b => a ^^ b))
    {s : State} (hread : s.Readable [.reg .ra, .reg .rb]) :
    ∃ r : Word, exec i s = .next (s.logicResult r) ∧ ∀ k, r.getLsbD k = op (s.ra.getLsbD k) (s.rb.getLsbD k) := by
  obtain ⟨rfl, rfl⟩ | ⟨rfl, rfl⟩ | ⟨rfl, rfl⟩ := hop
  · exact ⟨s.ra ||| s.rb, (exec_or_next s _).mpr ⟨hread, rfl⟩, fun _ => BitVec.getLsbD_or⟩
  · exact ⟨s.ra &&& s.rb, (exec_and_next s _).mpr ⟨hread, rfl⟩, fun _ => BitVec.getLsbD_and⟩
  · exact ⟨s.ra ^^^ s.rb, (exec_xor_next s _).mpr ⟨hread, rfl⟩, fun _ => BitVec.getLsbD_xor⟩

/-- Settles O33: the three words are encodings, and every bitwise instruction leaves `State.logicResult` of its own word. -/
theorem logicOperations : Obligations.LogicOperations := by
  refine ⟨fun rb => ⟨decodeWord_of_eq_encode rfl, decodeWord_of_eq_encode rfl, decodeWord_of_eq_encode rfl⟩, ?_⟩
  intro i op hop s hread
  obtain ⟨r, hexec, hbits⟩ := exec_logic_of_readable hop hread
  exact ⟨s.logicResult r, hexec, fun k _ => hbits k, zeroOf_iff_bits_false r, rfl, rfl,
    State.setReg_ra_setResultFlags_frame rfl⟩

end Sys2Proof.Machine
end

section
/-! PROOFS. MOV and EXCH: their words, their effects and EXCH's own inverse (spec/44_mov_exch.md R87, R88). -/

namespace Sys2Proof.Machine

/-! ### A written register is readable -/

/-- Writing a register removes the mark of each of its bytes and of no other register's (R97). -/
@[simp] theorem State.marked_byte_setReg (s : State) (r q : Reg) (b : ByteSel) (v : Word) :
    (s.setReg r v).marked (.byte q b) = if q = r then false else s.marked (.byte q b) := by
  cases b <;> by_cases hq : q = r <;> simp [State.marked, mem_dropMarks, hq]

@[simp] theorem State.isUnwritten_reg_setReg (s : State) (r q : Reg) (v : Word) :
    (s.setReg r v).isUnwritten (.reg q) = if q = r then false else s.isUnwritten (.reg q) := by
  by_cases hq : q = r <;> simp [State.isUnwritten, State.marksOf, hq]

/-- With both registers written, whatever was unwritten before, an instruction on RA and RB can read them. -/
theorem State.readable_setReg_ra_setReg_rb (s : State) (a b : Word) :
    ((s.setReg .ra a).setReg .rb b).Readable [.reg .ra, .reg .rb] := by
  simp [State.Readable]

/-! ### MOV -/

/-- Settles O36: 0xA000 is MOV's encoding, and MOV writes RA's word to RB alone. -/
theorem movCopies : Obligations.MovCopies :=
  ⟨fun _ => decodeWord_of_eq_encode rfl, fun s hread => ⟨s.setReg .rb s.ra, (exec_mov_next s _).mpr ⟨hread, rfl⟩, rfl⟩⟩

/-! ### EXCH -/

/-- A second EXCH completes, since the first has written all that it reads, and puts RA and RB back. -/
theorem exec_exch_of_exec_exch {s t : State} (h : exec .exch s = .next t) :
    ∃ u, exec .exch t = .next u ∧ u.ra = s.ra ∧ u.rb = s.rb := by
  obtain ⟨-, rfl⟩ := (exec_exch_next s t).mp h
  exact ⟨_, (exec_exch_next _ _).mpr ⟨s.readable_setReg_ra_setReg_rb s.rb s.ra, rfl⟩, by simp, by simp⟩

/-- Settles O37: 0xB000 is EXCH's encoding, EXCH writes each register's word to the other alone, and a second undoes it. -/
theorem exchSwaps : Obligations.ExchSwaps := by
  refine ⟨fun _ => decodeWord_of_eq_encode rfl, fun s hread => ?_⟩
  have hexec : exec .exch s = .next ((s.setReg .ra s.rb).setReg .rb s.ra) := (exec_exch_next s _).mpr ⟨hread, rfl⟩
  exact ⟨_, hexec, rfl, exec_exch_of_exec_exch hexec⟩

end Sys2Proof.Machine
end

section
/-! PROOFS. SET and CLR: their words, their reserved words and their effect (spec/45_cmp_set_clr.md R90, R91). -/

namespace Sys2Proof.Machine

/-! ### The words -/

/-- An opcode with each selected bit of bits 10 to 8 put in: the form in which R90 and R91 give their words. -/
theorem or_selects_eq_formatWord (op : BitVec 4) (z n c : Bool) :
    formatWord op false false false false 0x00#8 ||| (if z then 0x0400#16 else 0#16) |||
      (if n then 0x0200#16 else 0#16) ||| (if c then 0x0100#16 else 0#16) =
    formatWord op false z n c 0x00#8 := by
  apply BitVec.eq_of_getLsbD_eq
  intro i hi
  simp only [BitVec.getLsbD_or, getLsbD_ite_zero, getLsbD_formatWord]
  interval_cases i <;> simp

/-! ### The reserved words -/

/-- The dispatch itself refuses a word for its opcode alone (R66). -/
theorem instrOf_ne_reservedEncoding (w : Word) : instrOf w ≠ .reservedEncoding := by
  unfold instrOf
  split <;> exact DecodeResult.noConfusion

/-- A word is a reserved encoding exactly under `fault`, with an assigned opcode and a fixed-zero bit that is 1 (R63). -/
theorem decodeWord_eq_reservedEncoding_iff (rb : ReservedBits) (w : Word) :
    decodeWord rb w = .reservedEncoding ↔
      opcodeOf w ≠ 0xF#4 ∧ rb = .fault ∧ w &&& zeroMask w ≠ 0x0000#16 := by
  unfold decodeWord
  split
  case isTrue hop => simp [hop]
  case isFalse hop => simp [hop, instrOf_ne_reservedEncoding]

/-- The opcodes of SET and CLR fix bit 11 and the low field at 0. -/
theorem decodeWord_fault_eq_reservedEncoding_iff {w : Word} (hop : opcodeOf w = 0xD#4 ∨ opcodeOf w = 0xE#4) :
    decodeWord .fault w = .reservedEncoding ↔ w.getLsbD 11 = true ∨ lowField w ≠ 0x00#8 := by
  have hassigned : opcodeOf w ≠ 0xF#4 := by
    obtain hop | hop := hop <;> simp [hop]
  have hmask : zeroMask w = 0x08FF#16 := by
    obtain hop | hop := hop <;> simp [zeroMask, hop]
  simp [decodeWord_eq_reservedEncoding_iff, hassigned, hmask, and_08FF_eq_zero, imp_iff_not_or]

/-! ### The effect -/

/-- Writing the selected status bits leaves the others and everything else, marks aside, as they were. -/
theorem State.writeSelected_frame (s : State) (z n c b : Bool) :
    s.writeSelected z n c b =
      { s with z := if z then b else s.z, n := if n then b else s.n, c := if c then b else s.c,
               unwritten := (s.writeSelected z n c b).unwritten } := by
  apply State.eq_of_fields <;> simp

/-- Settles O38: R90's word is SET's encoding, its reserved words follow from the mask, and SET writes 1 to the selected bits. -/
theorem setSets : Obligations.SetSets := by
  refine ⟨fun rb z n c => decodeWord_of_eq_encode ?word,
    fun w hop => decodeWord_fault_eq_reservedEncoding_iff (.inl hop),
    fun z n c s => ⟨s.writeSelected z n c true, (exec_set_next z n c s _).mpr ⟨List.forall_mem_nil _, rfl⟩, ?effect⟩⟩
  case word => exact (or_selects_eq_formatWord 0xD#4 z n c).trans (encode_set z n c).symm
  case effect => simpa only [Bool.if_true_left, Bool.decide_eq_true, Bool.or_comm] using s.writeSelected_frame z n c true

/-- Settles O39: R91's word is CLR's encoding, its reserved words follow from the mask, and CLR writes 0 to the selected bits. -/
theorem clrClears : Obligations.ClrClears := by
  refine ⟨fun rb z n c => decodeWord_of_eq_encode ?word,
    fun w hop => decodeWord_fault_eq_reservedEncoding_iff (.inr hop),
    fun z n c s => ⟨s.writeSelected z n c false, (exec_clr_next z n c s _).mpr ⟨List.forall_mem_nil _, rfl⟩, ?effect⟩⟩
  case word => exact (or_selects_eq_formatWord 0xE#4 z n c).trans (encode_clr z n c).symm
  case effect => simpa only [Bool.if_false_left, Bool.decide_eq_true, Bool.and_comm] using s.writeSelected_frame z n c false

end Sys2Proof.Machine
end

section
/-! PROOFS. The first step after reset (spec/70_reset_and_hazards.md R105). -/

namespace Sys2Proof.Machine

/-- Reset starts the instruction cycle at code address 0x00 (R105). -/
@[simp] theorem State.launch_pc (cfg : Config) (img : LaunchImage) (ra rb : Word) (z n c : Bool) :
    (State.launch cfg img ra rb z n c).pc = 0x00#8 := rfl

/-- At address 0x00 the fetch's increment of PC (R20) leaves 0x01. -/
theorem State.advance_of_pc_zero {s : State} (hpc : s.pc = 0x00#8) : s.advance = { s with pc := 0x01#8 } := by
  apply State.eq_of_fields <;> simp [hpc]

/-- Settles O41: the launch's fields are its inputs and PC is 0x00, where a fetched instruction runs from the advanced state. -/
theorem launchFetchesAtZero : Obligations.LaunchFetchesAtZero := by
  rintro cfg img ra rb z n c s rfl
  refine ⟨State.launch_pc .., rfl, rfl, rfl, rfl, rfl, rfl, fun i hread hdec => ?_⟩
  rw [step_of_decoded hread hdec, State.advance_of_pc_zero (State.launch_pc ..)]

end Sys2Proof.Machine
end

section
/-! PROOFS. The execute phase as one guard and one result: what an instruction leaves unchanged, and which marks it removes
(spec/10_state.md R23; spec/60_exceptions.md R97). -/

namespace Sys2Proof.Machine

/-- What an instruction leaves once the guard over its reads has let it pass; `exec_eq_reading_executed` ties it to `exec`. -/
def State.executed (s : State) : Instr → State
  | .ldDirect r d => s.setReg r (s.memRead d)
  | .ldImm r b d =>
    (s.putReg r (loadByte s.cfg.ldImmOtherByte b (s.reg r) d)).markWritten (loadByteMarks s.cfg.ldImmOtherByte r b)
  | .st r a => s.memWrite a (s.reg r)
  | .inc r v =>
    (s.setReg r (s.reg r + incOperand s.cfg.incImmExt v)).setResultFlags (s.reg r + incOperand s.cfg.incImmExt v)
      (addCarry (s.reg r) (incOperand s.cfg.incImmExt v) (s.reg r + incOperand s.cfg.incImmExt v))
  | .br x z n c a => if s.branchTaken x z n c then s.setPc a else s
  | .add => (s.setReg .ra (s.ra + s.rb)).setResultFlags (s.ra + s.rb) (addCarry s.ra s.rb (s.ra + s.rb))
  | .sub =>
    (s.setReg .ra (s.ra - s.rb)).setResultFlags (s.ra - s.rb) (subCarryOf s.cfg.subCarry s.ra s.rb (s.ra - s.rb))
  | .or => s.logicResult (s.ra ||| s.rb)
  | .and => s.logicResult (s.ra &&& s.rb)
  | .xor => s.logicResult (s.ra ^^^ s.rb)
  | .shr => ((s.setReg .ra (s.ra >>> 1)).setFlag .c (s.ra.getLsbD 0)).setShrZN (s.ra >>> 1)
  | .mov => s.setReg .rb s.ra
  | .exch => (s.setReg .ra s.rb).setReg .rb s.ra
  | .cmp => s.setResultFlags (s.ra - s.rb) (subCarryOf s.cfg.subCarry s.ra s.rb (s.ra - s.rb))
  | .set z n c => s.writeSelected z n c true
  | .clr z n c => s.writeSelected z n c false

theorem exec_eq_reading_executed (i : Instr) (s : State) : exec i s = s.reading (instrReads i) (s.executed i) := by
  cases i <;> rfl

theorem exec_eq_next_iff {i : Instr} {s t : State} :
    exec i s = .next t ↔ s.Readable (instrReads i) ∧ t = s.executed i := by
  rw [exec_eq_reading_executed, State.reading_eq_next]

theorem exec_of_readable {i : Instr} {s : State} (hread : s.Readable (instrReads i)) :
    exec i s = .next (s.executed i) :=
  exec_eq_next_iff.mpr ⟨hread, rfl⟩

theorem exec_anyValue {s : State} (hany : s.cfg.resetUnspec = .anyValue) (i : Instr) :
    exec i s = .next (s.executed i) :=
  exec_of_readable (s.readable_anyValue hany _)

/-! ### What the result keeps -/

@[simp] theorem State.executed_cfg (s : State) (i : Instr) : (s.executed i).cfg = s.cfg := by
  cases i with
  | br x z n c a => simp only [State.executed]; split <;> rfl
  | _ => simp [State.executed]

theorem State.executed_pc_of_ne_br (s : State) {i : Instr} (hbr : ∀ x z n c a, i ≠ .br x z n c a) :
    (s.executed i).pc = s.pc := by
  cases i with
  | br x z n c a => exact absurd rfl (hbr x z n c a)
  | _ => simp [State.executed]

theorem State.executed_mem_of_ne_st (s : State) {i : Instr} (hst : ∀ r a, i ≠ .st r a) :
    (s.executed i).mem = s.mem := by
  cases i with
  | st r a => exact absurd rfl (hst r a)
  | br x z n c a => simp only [State.executed]; split <;> rfl
  | _ => simp [State.executed]

/-- Which marks a write removes does not depend on the order they are named in. -/
theorem dropMarks_congr {a b : List Mark} (h : ∀ m, m ∈ a ↔ m ∈ b) (l : List Mark) : dropMarks l a = dropMarks l b :=
  List.filter_congr fun m _ => by simp [h]

/-- The marks that R97 has an instruction remove are exactly those of what it writes. -/
theorem State.executed_unwritten (s : State) (i : Instr) :
    (s.executed i).unwritten = dropMarks s.unwritten (s.instrWrites i) := by
  cases i with
  | br x z n c a => simp only [State.executed, State.instrWrites, dropMarks_none]; split <;> rfl
  | shr =>
    cases hshr : s.cfg.shrZN with
    | unchanged => simp [State.executed, State.instrWrites, hshr]
    | fromResult =>
      simp only [State.executed, State.instrWrites, hshr, State.setShrZN_unwritten, State.setFlag_cfg, State.setReg_cfg,
        State.setFlag_unwritten, State.setReg_unwritten, dropMarks_dropMarks]
      exact dropMarks_congr (fun m => by simp; tauto) _
  | _ => simp [State.executed, State.instrWrites]

end Sys2Proof.Machine
end

section
/-! PROOFS. What every step keeps: the parameters, code memory under `harvard`, the state invariant
(spec/00_scope.md section 4; spec/20_memory.md section 1; spec/60_exceptions.md R97). -/

namespace Sys2Proof.Machine

/-- A step that answers a next state has let the fetched instruction pass the guard and left its result. -/
theorem step_next_executed {s t : State} (h : step s = .next t) :
    ∃ i, decodeWord s.cfg.reservedBits (s.codeRead s.pc) = .ok i ∧ s.isUnwritten (.code s.pc) = false ∧
      s.advance.Readable (instrReads i) ∧ t = s.advance.executed i := by
  obtain ⟨i, hdec, hread, hexec⟩ := step_eq_next s t h
  exact ⟨i, hdec, hread, exec_eq_next_iff.mp hexec⟩

/-- What holds at the start and is kept by every step holds of every state reached. -/
theorem Reaches.of_step_keeps {P : State → Prop} (hkeep : ∀ s t, P s → step s = .next t → P t) {s t : State}
    (h : Reaches s t) (hs : P s) : P t := by
  induction h with
  | refl => exact hs
  | tail _ hstep ih => exact hkeep _ _ ih hstep

/-! ### Parameters and marks -/

/-- Settles O47: neither the fetch nor any instruction's result touches the parameters. -/
theorem stepKeepsParameters : Obligations.StepKeepsParameters := by
  intro s t hstep
  obtain ⟨i, -, -, -, rfl⟩ := step_next_executed hstep
  rw [State.executed_cfg, State.advance_cfg]

/-- Settles O15: the marks left are the old ones without those of what the instruction writes. -/
theorem marksAfterExecute : Obligations.MarksAfterExecute := by
  intro i s t hexec m
  obtain ⟨-, rfl⟩ := exec_eq_next_iff.mp hexec
  rw [State.executed_unwritten, mem_dropMarks]

/-! ### Memory -/

/-- Settles O19: the result of every other instruction has the memory it started with. -/
theorem onlyStWritesMemory : Obligations.OnlyStWritesMemory := by
  intro i s t hexec hst p
  obtain ⟨-, rfl⟩ := exec_eq_next_iff.mp hexec
  rw [s.executed_mem_of_ne_st hst]

/-- An instruction writes at most one word of memory, and that is a data word. -/
theorem State.executed_mem_cases (s : State) (i : Instr) :
    (s.executed i).mem = s.mem ∨ ∃ a v, (s.executed i).mem = s.mem.writeWord (s.dataKey a) v := by
  cases i with
  | st r a => exact .inr ⟨a, s.reg r, rfl⟩
  | _ => exact .inl (s.executed_mem_of_ne_st fun _ _ => Instr.noConfusion)

theorem State.codeRead_congr {s t : State} (h : t.mem = s.mem) (a : Addr) : t.codeRead a = s.codeRead a := by
  rw [State.codeRead, State.codeRead, h, State.codeKey_congr s t]

/-- Under `harvard` the one word that an instruction can write is no code word (R37). -/
theorem State.codeRead_executed_harvard {s : State} (hharvard : s.cfg.memOrg = .harvard) (i : Instr) (a : Addr) :
    (s.executed i).codeRead a = s.codeRead a := by
  obtain hmem | ⟨b, v, hmem⟩ := s.executed_mem_cases i
  · exact State.codeRead_congr hmem a
  · exact (State.codeRead_congr (t := s.executed i) (s := s.memWrite b v) hmem a).trans
      (s.codeRead_memWrite_harvard hharvard b v a)

theorem Reaches.cfg {s t : State} (h : Reaches s t) : t.cfg = s.cfg :=
  h.of_step_keeps (P := fun u => u.cfg = s.cfg) (fun u v hcfg hstep => (stepKeepsParameters u v hstep).trans hcfg) rfl

/-- Settles O22: by induction on the run, whose every state is a `harvard` machine's. -/
theorem harvardCodeNeverChanges : Obligations.HarvardCodeNeverChanges := by
  intro s t hharvard hreach a
  induction hreach with
  | refl => rfl
  | @tail u v hrun hstep ih =>
    obtain ⟨i, -, -, -, rfl⟩ := step_next_executed hstep
    have horg : u.advance.cfg.memOrg = .harvard := by rw [State.advance_cfg, hrun.cfg, hharvard]
    calc (u.advance.executed i).codeRead a = u.advance.codeRead a := State.codeRead_executed_harvard horg i a
      _ = u.codeRead a := rfl
      _ = s.codeRead a := ih

/-! ### The invariant -/

/-- PC is in no clause of the invariant. -/
theorem State.Inv.advance {s : State} (h : s.Inv) : s.advance.Inv := h

/-- An instruction keeps storage canonical and within bounds, and its marks are some of the old ones in their order. -/
theorem State.Inv.executed {s : State} (h : s.Inv) (i : Instr) : (s.executed i).Inv := by
  obtain ⟨hwf, hbelow, hmarks, hany⟩ := h
  have hmem : (s.executed i).mem.wf = true ∧ (s.executed i).mem.below (2 * storageWords s.cfg.memOrg) = true := by
    obtain hmem | ⟨a, v, hmem⟩ := s.executed_mem_cases i
    · rw [hmem]
      exact ⟨hwf, hbelow⟩
    · rw [hmem]
      exact ⟨Memory.writeWord_wf _ _ _ hwf, Memory.writeWord_below _ _ _ _ hbelow (s.dataKey_lt a)⟩
  rw [State.Inv, State.executed_cfg, State.executed_unwritten]
  refine ⟨hmem.1, hmem.2, (dropMarks_sublist _ _).trans hmarks, fun hunspec => ?_⟩
  rw [hany hunspec, dropMarks_nil]

/-- Settles O46: the fetch moves only PC, and every instruction's result keeps the invariant. -/
theorem stepKeepsInv : Obligations.StepKeepsInv := by
  intro s t hinv hstep
  obtain ⟨i, -, -, -, rfl⟩ := step_next_executed hstep
  exact hinv.advance.executed i

/-- Settles O45: nothing is listed in memory and nothing is marked. -/
theorem resetMeetsInv : Obligations.ResetMeetsInv :=
  ⟨Memory.wf_nil, Memory.below_nil _, List.nil_sublist _, fun _ => rfl⟩

end Sys2Proof.Machine
end

section
/-! PROOFS. `read_faults` simulates `any_value` (spec/60_exceptions.md R97; spec/92_eei_decisions.md D10): two machines that
agree on what is not marked read the same values in what the guard lets through, and every write keeps them in agreement. -/

namespace Sys2Proof.Machine

/-- Two machines hold the same value in the one thing that a mark stands for. -/
def AgreeAt (s u : State) : Mark → Prop
  | .byte r b => u.byteOf r b = s.byteOf r b
  | .flag f => u.flag f = s.flag f
  | .word key => u.mem.readWord key = s.mem.readWord key

/-- `Agree` as one clause over the marks. -/
theorem agree_iff {s u : State} :
    Agree s u ↔ s.cfg.resetUnspec = .readFaults ∧ u.cfg = { s.cfg with resetUnspec := .anyValue } ∧ u.pc = s.pc ∧
      ∀ m, m ∉ s.unwritten → AgreeAt s u m := by
  constructor
  · rintro ⟨hfaults, hcfg, hpc, hbytes, hflags, hwords⟩
    refine ⟨hfaults, hcfg, hpc, fun m hm => ?_⟩
    cases m with
    | byte r b => exact hbytes r b hm
    | flag f => exact hflags f hm
    | word key => exact hwords key hm
  · rintro ⟨hfaults, hcfg, hpc, hat⟩
    exact ⟨hfaults, hcfg, hpc, fun r b => hat (.byte r b), fun f => hat (.flag f), fun key => hat (.word key)⟩

namespace Agree

variable {s u : State}

/-! ### What the guard lets through reads the same -/

theorem anyValue (h : Agree s u) : u.cfg.resetUnspec = .anyValue := by
  rw [h.cfg]

theorem dataKey (h : Agree s u) (a : Addr) : u.dataKey a = s.dataKey a := by
  simp only [State.dataKey, h.cfg]

theorem notMem_of_readable (h : Agree s u) {item : ReadItem} (hread : s.isUnwritten item = false) {m : Mark}
    (hm : m ∈ s.marksOf item) : m ∉ s.unwritten := by
  intro hmarked
  have hunwritten : s.marked m = true := (s.marked_eq_true m).mpr ⟨h.readFaults, hmarked⟩
  exact absurd hunwritten (List.any_eq_false.mp hread m hm)

theorem reg (h : Agree s u) {r : Reg} (hread : s.isUnwritten (.reg r) = false) : u.reg r = s.reg r := by
  have hlow : u.byteOf r .low = s.byteOf r .low := h.bytes r .low (h.notMem_of_readable hread (by simp [State.marksOf]))
  have hhigh : u.byteOf r .high = s.byteOf r .high :=
    h.bytes r .high (h.notMem_of_readable hread (by simp [State.marksOf]))
  calc u.reg r = joinBytes (u.byteOf r .high) (u.byteOf r .low) := (joinBytes_bytes _).symm
    _ = joinBytes (s.byteOf r .high) (s.byteOf r .low) := by rw [hlow, hhigh]
    _ = s.reg r := joinBytes_bytes _

theorem flag (h : Agree s u) {f : Flag} (hread : s.isUnwritten (.flag f) = false) : u.flag f = s.flag f :=
  h.flags f (h.notMem_of_readable hread (by simp [State.marksOf]))

theorem codeRead (h : Agree s u) {a : Addr} (hread : s.isUnwritten (.code a) = false) : u.codeRead a = s.codeRead a :=
  h.words (s.codeKey a) (h.notMem_of_readable hread (by simp [State.marksOf]))

theorem memRead (h : Agree s u) {a : Addr} (hread : s.isUnwritten (.data a) = false) : u.memRead a = s.memRead a := by
  rw [State.memRead, h.dataKey]
  exact h.words (s.dataKey a) (h.notMem_of_readable hread (by simp [State.marksOf]))

/-- A BR whose selected status bits are readable is taken in both machines or in neither. -/
theorem branchTaken (h : Agree s u) {x z n c : Bool} (hread : s.Readable (branchReads x z n c)) :
    u.branchTaken x z n c = s.branchTaken x z n c := by
  unfold State.branchTaken
  cases halways : branchAlways x z n c with
  | true => rfl
  | false =>
    have hflag : ∀ f ∈ selectedFlags z n c, u.flag f = s.flag f := fun f hf =>
      h.flag (hread (.flag f) (by simp [branchReads, halways, hf]))
    have hz : (z && flagMeets x u.z) = (z && flagMeets x s.z) := by
      cases z with
      | false => rfl
      | true => rw [← State.flag_z u, hflag .z (by simp [selectedFlags]), State.flag_z]
    have hn : (n && flagMeets x u.n) = (n && flagMeets x s.n) := by
      cases n with
      | false => rfl
      | true => rw [← State.flag_n u, hflag .n (by simp [selectedFlags]), State.flag_n]
    have hc : (c && flagMeets x u.c) = (c && flagMeets x s.c) := by
      cases c with
      | false => rfl
      | true => rw [← State.flag_c u, hflag .c (by simp [selectedFlags]), State.flag_c]
    rw [hz, hn, hc]

/-! ### Every write keeps the agreement -/

/-- Both machines write the things `ms`: it is enough that the new states agree at each thing where, if it is not among them,
the old ones did. -/
theorem write (h : Agree s u) {s' u' : State} {ms : List Mark} (hs : s'.cfg = s.cfg) (hu : u'.cfg = u.cfg)
    (hpc : u'.pc = s'.pc) (hmarks : s'.unwritten = dropMarks s.unwritten ms)
    (hat : ∀ m, (m ∉ ms → AgreeAt s u m) → AgreeAt s' u' m) : Agree s' u' := by
  obtain ⟨hfaults, hcfg, -, hold⟩ := agree_iff.mp h
  refine agree_iff.mpr ⟨hs ▸ hfaults, ?_, hpc, fun m hm => hat m fun hms => hold m fun hmem => hm ?_⟩
  · rw [hu, hs, hcfg]
  · rw [hmarks, mem_dropMarks]
    exact ⟨hmem, hms⟩

theorem setPc (h : Agree s u) (a : Addr) : Agree (s.setPc a) (u.setPc a) :=
  ⟨h.readFaults, h.cfg, rfl, h.bytes, h.flags, h.words⟩

theorem advance (h : Agree s u) : Agree s.advance u.advance := by
  rw [State.advance, State.advance, h.pc]
  exact h.setPc (s.pc + 1)

end Agree

@[simp] theorem State.flag_setReg (s : State) (r : Reg) (v : Word) (f : Flag) : (s.setReg r v).flag f = s.flag f := by
  cases r <;> cases f <;> rfl

@[simp] theorem State.reg_setFlag (s : State) (f : Flag) (b : Bool) (r : Reg) : (s.setFlag f b).reg r = s.reg r := by
  cases r <;> cases f <;> rfl

@[simp] theorem State.reg_memWrite (s : State) (a : Addr) (v : Word) (r : Reg) : (s.memWrite a v).reg r = s.reg r := by
  cases r <;> rfl

@[simp] theorem State.flag_memWrite (s : State) (a : Addr) (v : Word) (f : Flag) : (s.memWrite a v).flag f = s.flag f := by
  cases f <;> rfl

@[simp] theorem State.flag_putReg (s : State) (r : Reg) (v : Word) (f : Flag) : (s.putReg r v).flag f = s.flag f := by
  cases r <;> cases f <;> rfl

@[simp] theorem State.flag_markWritten (s : State) (ms : List Mark) (f : Flag) : (s.markWritten ms).flag f = s.flag f := by
  cases f <;> rfl

/-- The byte that an immediate load selects becomes its value, the other what `LD_IMM_OTHER_BYTE` keeps of it (R74). -/
theorem State.byteOf_executed_ldImm (s : State) (r : Reg) (b k : ByteSel) (d : Byte) :
    (s.executed (.ldImm r b d)).byteOf r k = if k = b then d else keptByte s.cfg.ldImmOtherByte (s.byteOf r k) := by
  cases b <;> cases k <;> simp [State.executed, State.byteOf, loadByte]

theorem agreeAt_byte_of_reg_eq {s u : State} {r : Reg} (h : u.reg r = s.reg r) (b : ByteSel) :
    AgreeAt s u (.byte r b) := by
  cases b <;> simp only [AgreeAt, State.byteOf, h]

/-- Machines that agree at a byte still do when neither's register has changed. -/
theorem AgreeAt.byte_congr {s u s' u' : State} {r : Reg} {b : ByteSel} (h : AgreeAt s u (.byte r b))
    (hs : s'.reg r = s.reg r) (hu : u'.reg r = u.reg r) : AgreeAt s' u' (.byte r b) := by
  cases b <;> simpa only [AgreeAt, State.byteOf, hs, hu] using h

namespace Agree

variable {s u : State}

theorem setReg (h : Agree s u) (r : Reg) (v : Word) : Agree (s.setReg r v) (u.setReg r v) := by
  refine h.write (ms := [.byte r .low, .byte r .high]) (by simp) (by simp) (by simp [h.pc]) (by simp) fun m hold => ?_
  cases m with
  | byte q b =>
    by_cases hq : q = r
    · exact agreeAt_byte_of_reg_eq (by simp [hq]) b
    · exact (hold (by simp [hq])).byte_congr (by simp [hq]) (by simp [hq])
  | flag f => simpa [AgreeAt] using hold (by simp)
  | word key => simpa [AgreeAt] using hold (by simp)

theorem setFlag (h : Agree s u) (f : Flag) (b : Bool) : Agree (s.setFlag f b) (u.setFlag f b) := by
  refine h.write (ms := [.flag f]) (by simp) (by simp) (by simp [h.pc]) (by simp) fun m hold => ?_
  cases m with
  | byte r k => exact (hold (by simp)).byte_congr (by simp) (by simp)
  | flag g =>
    by_cases hg : g = f
    · simp [AgreeAt, hg]
    · simpa [AgreeAt, hg] using hold (by simp [hg])
  | word key => simpa [AgreeAt] using hold (by simp)

theorem memWrite (h : Agree s u) (a : Addr) (v : Word) : Agree (s.memWrite a v) (u.memWrite a v) := by
  refine h.write (ms := [.word (s.dataKey a)]) (by simp) (by simp) (by simp [h.pc]) (by simp) fun m hold => ?_
  cases m with
  | byte r k => exact (hold (by simp)).byte_congr (by simp) (by simp)
  | flag f => simpa [AgreeAt] using hold (by simp)
  | word key =>
    by_cases hkey : key = s.dataKey a
    · simp [AgreeAt, h.dataKey, Memory.readWord_writeWord, hkey]
    · simpa [AgreeAt, h.dataKey, Memory.readWord_writeWord, hkey] using hold (by simp [hkey])

theorem setFlags (h : Agree s u) (z n c : Bool) : Agree (s.setFlags z n c) (u.setFlags z n c) :=
  ((h.setFlag .z z).setFlag .n n).setFlag .c c

theorem setResultFlags (h : Agree s u) (r : Word) (c : Bool) : Agree (s.setResultFlags r c) (u.setResultFlags r c) :=
  h.setFlags (zeroOf r) (negativeOf r) c

theorem logicResult (h : Agree s u) (r : Word) : Agree (s.logicResult r) (u.logicResult r) :=
  (h.setReg .ra r).setResultFlags r false

theorem setFlagIf (h : Agree s u) (sel : Bool) (f : Flag) (b : Bool) :
    Agree (s.setFlagIf sel f b) (u.setFlagIf sel f b) := by
  cases sel with
  | false => exact h
  | true => exact h.setFlag f b

theorem writeSelected (h : Agree s u) (z n c b : Bool) : Agree (s.writeSelected z n c b) (u.writeSelected z n c b) :=
  ((h.setFlagIf z .z b).setFlagIf n .n b).setFlagIf c .c b

theorem setShrZN (h : Agree s u) (r : Word) : Agree (s.setShrZN r) (u.setShrZN r) := by
  have hshr : u.cfg.shrZN = s.cfg.shrZN := by rw [h.cfg]
  unfold State.setShrZN
  rw [hshr]
  cases s.cfg.shrZN with
  | unchanged => exact h
  | fromResult => exact (h.setFlag .z (zeroOf r)).setFlag .n false

/-- An immediate load reads no register through the guard, and need not: what it keeps of the old value under `preserve` is a
byte whose mark stays as it was, and under `zero` it keeps nothing (R74, R97). -/
theorem ldImm (h : Agree s u) (r : Reg) (b : ByteSel) (d : Byte) :
    Agree (s.executed (.ldImm r b d)) (u.executed (.ldImm r b d)) := by
  refine h.write (ms := loadByteMarks s.cfg.ldImmOtherByte r b) (by simp) (by simp) (by simp [State.executed, h.pc])
    (s.executed_unwritten (.ldImm r b d)) fun m hold => ?_
  cases m with
  | byte q k =>
    by_cases hq : q = r
    · subst hq
      rw [AgreeAt, State.byteOf_executed_ldImm, State.byteOf_executed_ldImm, h.cfg]
      by_cases hk : k = b
      · rw [if_pos hk, if_pos hk]
      · rw [if_neg hk, if_neg hk]
        cases hother : s.cfg.ldImmOtherByte with
        | zero => rfl
        | preserve => exact hold (by simp [loadByteMarks, hother, hk])
    · refine (hold ?_).byte_congr (by simp [State.executed, hq]) (by simp [State.executed, hq])
      cases s.cfg.ldImmOtherByte <;> simp [loadByteMarks, hq]
  | flag f => simpa [AgreeAt, State.executed] using hold (by cases s.cfg.ldImmOtherByte <;> simp [loadByteMarks])
  | word key => simpa [AgreeAt, State.executed] using hold (by cases s.cfg.ldImmOtherByte <;> simp [loadByteMarks])

/-! ### The step -/

/-- The commuting diagram for one instruction whose reads the guard lets through. -/
theorem executed (h : Agree s u) {i : Instr} (hread : s.Readable (instrReads i)) : Agree (s.executed i) (u.executed i) := by
  have hreg : ∀ r, .reg r ∈ instrReads i → u.reg r = s.reg r := fun r hr => h.reg (hread (.reg r) hr)
  have hra : .reg .ra ∈ instrReads i → u.ra = s.ra := hreg .ra
  have hrb : .reg .rb ∈ instrReads i → u.rb = s.rb := hreg .rb
  cases i with
  | ldDirect r d =>
    have hdata : u.memRead d = s.memRead d := h.memRead (hread (.data d) (by simp [instrReads]))
    simp only [State.executed, hdata]
    exact h.setReg r _
  | ldImm r b d => exact h.ldImm r b d
  | st r a =>
    simp only [State.executed, hreg r (by simp [instrReads])]
    exact h.memWrite a _
  | inc r v =>
    simp only [State.executed, hreg r (by simp [instrReads]), h.cfg]
    exact (h.setReg r _).setResultFlags _ _
  | br x z n c a =>
    simp only [State.executed, h.branchTaken hread]
    split
    · exact h.setPc a
    · exact h
  | add | sub =>
    simp only [State.executed, hra (by simp [instrReads]), hrb (by simp [instrReads]), h.cfg]
    exact (h.setReg .ra _).setResultFlags _ _
  | or | and | xor =>
    simp only [State.executed, hra (by simp [instrReads]), hrb (by simp [instrReads])]
    exact h.logicResult _
  | shr =>
    simp only [State.executed, hra (by simp [instrReads])]
    exact ((h.setReg .ra _).setFlag .c _).setShrZN _
  | mov =>
    simp only [State.executed, hra (by simp [instrReads])]
    exact h.setReg .rb _
  | exch =>
    simp only [State.executed, hra (by simp [instrReads]), hrb (by simp [instrReads])]
    exact (h.setReg .ra _).setReg .rb _
  | cmp =>
    simp only [State.executed, hra (by simp [instrReads]), hrb (by simp [instrReads]), h.cfg]
    exact h.setResultFlags _ _
  | set z n c => exact h.writeSelected z n c true
  | clr z n c => exact h.writeSelected z n c false

end Agree

/-- Settles O50: both machines fetch the same word, and the instruction's diagram commutes. -/
theorem readFaultsSimulates : Obligations.ReadFaultsSimulates := by
  intro s u s' h hstep
  obtain ⟨i, hdec, hcode, hread, rfl⟩ := step_next_executed hstep
  have hdec' : decodeWord u.cfg.reservedBits (u.codeRead u.pc) = .ok i := by
    rw [h.pc, h.codeRead hcode, h.cfg]
    exact hdec
  have hstep' : step u = exec i u.advance := step_of_decoded (u.isUnwritten_anyValue h.anyValue _) hdec'
  exact ⟨u.advance.executed i, hstep'.trans (exec_anyValue h.advance.anyValue i), h.advance.executed hread⟩

end Sys2Proof.Machine
end

section
/-! PROOFS. The decoder's answers: a word decodes to the instruction whose encoding it is, fixed-zero bits aside, and decodes at
all exactly when a row of the opcode table accepts it (spec/30_encoding.md R59, R61, R63, R66; spec/92_eei_decisions.md D9). -/

namespace Sys2Proof

/-! ### A word with its fixed-zero bits cleared -/

theorem and_FF (b : BitVec 8) : b &&& 0xFF#8 = b := BitVec.and_allOnes

/-- Clearing a mask that names no opcode bit, field by field. -/
theorem and_not_formatWord (w : Word) (b11 b10 b9 b8 : Bool) (low : BitVec 8) :
    w &&& ~~~formatWord 0x0#4 b11 b10 b9 b8 low =
      formatWord (opcodeOf w) (w.getLsbD 11 && !b11) (w.getLsbD 10 && !b10) (w.getLsbD 9 && !b9) (w.getLsbD 8 && !b8)
        (lowField w &&& ~~~low) := by
  apply BitVec.eq_of_getLsbD_eq
  intro i hi
  simp only [BitVec.getLsbD_and, BitVec.getLsbD_not, getLsbD_formatWord, opcodeOf, lowField, BitVec.getLsbD_extractLsb']
  interval_cases i <;> simp

theorem and_not_0100 (w : Word) :
    w &&& ~~~0x0100#16 =
      formatWord (opcodeOf w) (w.getLsbD 11) (w.getLsbD 10) (w.getLsbD 9) false (lowField w) :=
  (and_not_formatWord w false false false true 0x00#8).trans (by simp [and_FF])

theorem and_not_0300 (w : Word) :
    w &&& ~~~0x0300#16 = formatWord (opcodeOf w) (w.getLsbD 11) (w.getLsbD 10) false false (lowField w) :=
  (and_not_formatWord w false false true true 0x00#8).trans (by simp [and_FF])

theorem and_not_0700 (w : Word) :
    w &&& ~~~0x0700#16 = formatWord (opcodeOf w) (w.getLsbD 11) false false false (lowField w) :=
  (and_not_formatWord w false true true true 0x00#8).trans (by simp [and_FF])

theorem and_not_08FF (w : Word) :
    w &&& ~~~0x08FF#16 = formatWord (opcodeOf w) false (w.getLsbD 10) (w.getLsbD 9) (w.getLsbD 8) 0x00#8 :=
  (and_not_formatWord w true false false false 0xFF#8).trans (by simp)

theorem and_not_0FFF (w : Word) :
    w &&& ~~~0x0FFF#16 = formatWord (opcodeOf w) false false false false 0x00#8 :=
  (and_not_formatWord w true true true true 0xFF#8).trans (by simp)

/-! ### A word is its encoding, fixed-zero bits aside -/

theorem decide_regField_eq_rb (w : Word) : decide (regField w = .rb) = w.getLsbD 11 := by
  unfold regField
  cases w.getLsbD 11 <;> rfl

theorem decide_byteField_eq_high (w : Word) : decide (byteField w = .high) = w.getLsbD 9 := by
  unfold byteField
  cases w.getLsbD 9 <;> rfl

/-- The dispatch reads every bit of the word but the fixed-zero ones (R55, R66). -/
theorem encode_of_instrOf {w : Word} {i : Instr} (h : instrOf w = .ok i) : encode i = w &&& ~~~zeroMask w := by
  unfold instrOf at h
  split at h <;> cases h
  case h_1 hop =>
    cases h10 : w.getLsbD 10 with
    | true =>
      have hmask : zeroMask w = 0x0100#16 := by simp only [zeroMask, hop, h10, if_true]
      rw [hmask, and_not_0100, if_pos rfl, encode_ldImm, hop, h10, decide_regField_eq_rb, decide_byteField_eq_high]
    | false =>
      have hmask : zeroMask w = 0x0300#16 := by simp only [zeroMask, hop, h10, Bool.false_eq_true, if_false]
      rw [hmask, and_not_0300, if_neg Bool.false_ne_true, encode_ldDirect, hop, h10, decide_regField_eq_rb]
  case h_2 hop =>
    have hmask : zeroMask w = 0x0700#16 := by simp [zeroMask, hop]
    rw [hmask, and_not_0700, encode_st, hop, decide_regField_eq_rb]
  case h_3 hop =>
    have hmask : zeroMask w = 0x0700#16 := by simp [zeroMask, hop]
    rw [hmask, and_not_0700, encode_inc, hop, decide_regField_eq_rb]
  case h_4 hop =>
    have hmask : zeroMask w = 0x0000#16 := by simp [zeroMask, hop]
    rw [hmask, encode_br, ← hop, ← eq_formatWord]
    exact (BitVec.and_allOnes (x := w)).symm
  case h_14 hop =>
    have hmask : zeroMask w = 0x08FF#16 := by simp [zeroMask, hop]
    rw [hmask, and_not_08FF, encode_set, hop]
  case h_15 hop =>
    have hmask : zeroMask w = 0x08FF#16 := by simp [zeroMask, hop]
    rw [hmask, and_not_08FF, encode_clr, hop]
  all_goals
    rename_i hop
    have hmask : zeroMask w = 0x0FFF#16 := by simp [zeroMask, hop]
    rw [hmask, and_not_0FFF, hop]
    rfl

/-- Only opcode 1111 selects no instruction (R61). -/
theorem exists_instrOf_iff (w : Word) : (∃ i, instrOf w = .ok i) ↔ opcodeOf w ≠ 0xF#4 := by
  refine ⟨fun ⟨_, h⟩ => opcodeOf_ne_of_instrOf_eq_ok h, fun hop => ?_⟩
  unfold instrOf
  split
  case h_16 =>
    obtain h | h | h | h | h | h | h | h | h | h | h | h | h | h | h | h := opcode_cases (opcodeOf w) <;> contradiction
  all_goals exact ⟨_, rfl⟩

theorem decodeWord_eq_ok_iff (rb : ReservedBits) (w : Word) (i : Instr) :
    decodeWord rb w = .ok i ↔ instrOf w = .ok i ∧ (rb = .fault → w &&& zeroMask w = 0x0000#16) := by
  constructor
  · intro h
    unfold decodeWord at h
    split at h
    case isTrue => cases h
    case isFalse =>
      split at h
      case isTrue => cases h
      case isFalse hzero => exact ⟨h, fun hrb => by_contra fun hne => hzero ⟨hrb, hne⟩⟩
  · rintro ⟨h, hzero⟩
    rw [decodeWord, if_neg (opcodeOf_ne_of_instrOf_eq_ok h), if_neg (fun ⟨hrb, hne⟩ => hne (hzero hrb)), h]

theorem exists_decodeWord_iff (rb : ReservedBits) (w : Word) :
    (∃ i, decodeWord rb w = .ok i) ↔ opcodeOf w ≠ 0xF#4 ∧ (rb = .fault → w &&& zeroMask w = 0x0000#16) := by
  rw [← exists_instrOf_iff, ← exists_and_right]
  exact exists_congr fun i => decodeWord_eq_ok_iff rb w i

theorem and_not_eq_self {w m : Word} (h : w &&& m = 0x0000#16) : w &&& ~~~m = w := by
  apply BitVec.eq_of_getLsbD_eq
  intro i hi
  have hbit : m.getLsbD i = true → w.getLsbD i = false := (and_eq_zero_iff w m).mp h i hi
  cases hm : m.getLsbD i <;> simp_all

/-- Settles O2: with the fixed-zero bits 0, the word is the encoding of what the dispatch answers; the converse is O1. -/
theorem decodeOnlyEncodings : Obligations.DecodeOnlyEncodings := by
  intro w i
  refine ⟨fun h => ?_, decodeWord_of_eq_encode⟩
  obtain ⟨hinstr, hzero⟩ := (decodeWord_eq_ok_iff .fault w i).mp h
  rw [encode_of_instrOf hinstr, and_not_eq_self (hzero rfl)]

/-- Settles O4: the word with its fixed-zero bits cleared is the encoding of what the dispatch answers for the word itself. -/
theorem ignoreDropsReservedBits : Obligations.IgnoreDropsReservedBits := by
  intro w
  have hdecodes : opcodeOf w ≠ 0xF#4 → ∃ i, decodeWord .ignore w = .ok i := fun hop =>
    (exists_decodeWord_iff .ignore w).mpr ⟨hop, fun h => by cases h⟩
  refine ⟨?_, hdecodes⟩
  by_cases hop : opcodeOf w = 0xF#4
  · have hmask : w &&& ~~~zeroMask w = w := and_not_eq_self (by simp [zeroMask, hop])
    rw [hmask, decodeWord, decodeWord, if_pos hop, if_pos hop]
  · obtain ⟨i, hi⟩ := hdecodes hop
    rw [hi, ← encode_of_instrOf ((decodeWord_eq_ok_iff .ignore w i).mp hi).1, decodeEncode]

/-! ### The opcode table -/

/-- The bits that select a word's format: the opcode and, for LD, the bit L (R54, R66). -/
def formatMask (w : Word) : Word := if opcodeOf w = 0x0#4 then 0xF400#16 else 0xF000#16

theorem opcodeOf_formatMask (w : Word) : opcodeOf (formatMask w) = 0xF#4 := by
  unfold formatMask
  split <;> rfl

theorem opcodeOf_and_formatMask (w v : Word) : opcodeOf (w &&& formatMask v) = opcodeOf w := by
  have hfield : opcodeOf (w &&& formatMask v) = opcodeOf w &&& opcodeOf (formatMask v) := BitVec.extractLsb'_and
  rw [hfield, opcodeOf_formatMask]
  exact BitVec.and_allOnes

theorem formatMask_congr {w v : Word} (h : opcodeOf w = opcodeOf v) : formatMask w = formatMask v := by
  rw [formatMask, formatMask, h]

/-- The fixed-zero bits depend on the format alone. -/
theorem zeroMask_and_formatMask (w : Word) : zeroMask (w &&& formatMask w) = zeroMask w := by
  have hbit : opcodeOf w = 0x0#4 → (w &&& formatMask w).getLsbD 10 = w.getLsbD 10 := fun hop => by
    simp [formatMask, hop]
  unfold zeroMask
  rw [opcodeOf_and_formatMask]
  split
  case h_1 hop => rw [hbit hop]
  all_goals rfl

/-- A word's format, as a word: its opcode, for LD its bit L, and zeros. -/
theorem and_formatMask (w : Word) :
    w &&& formatMask w =
      formatWord (opcodeOf w) false (decide (opcodeOf w = 0x0#4) && w.getLsbD 10) false false 0x00#8 := by
  by_cases hop : opcodeOf w = 0x0#4
  · rw [formatMask, if_pos hop, decide_eq_true hop, Bool.true_and]
    exact (and_not_formatWord w true false true true 0xFF#8).trans (by simp)
  · rw [formatMask, if_neg hop, decide_eq_false hop, Bool.false_and]
    exact and_not_0FFF w

theorem or_and_left_self (h z : Word) : (h ||| z) &&& h = h := by
  ext i hi
  simp only [BitVec.getElem_and, BitVec.getElem_or]
  cases h[i] <;> cases z[i] <;> rfl

/-- A word meets a pattern within two disjoint masks, the first of which holds the pattern, part by part. -/
theorem and_or_eq_iff {w h z p : Word} (hp : p &&& h = p) (hz : h &&& z = 0x0000#16) :
    w &&& (h ||| z) = p ↔ w &&& h = p ∧ w &&& z = 0x0000#16 := by
  constructor
  · intro hw
    have hwh : w &&& h = p &&& h := by
      rw [← hw, BitVec.and_assoc, or_and_left_self]
    have hwz : w &&& z = p &&& z := by
      rw [← hw, BitVec.and_assoc, BitVec.or_comm, or_and_left_self]
    refine ⟨hwh.trans hp, ?_⟩
    rw [hwz, ← hp, BitVec.and_assoc, hz, BitVec.and_zero]
  · rintro ⟨hwh, hwz⟩
    rw [BitVec.and_or_distrib_left, hwh, hwz, BitVec.or_zero]

/-- How the table's rows are made: a pattern within its format's mask, tested under `fault` for the fixed-zero bits too. -/
theorem opcodeRows_masks (rb : ReservedBits) : ∀ row ∈ opcodeRows,
    row.maskFor rb = formatMask row.pattern ||| (if rb = .fault then zeroMask row.pattern else 0x0000#16) ∧
      row.pattern &&& formatMask row.pattern = row.pattern ∧ formatMask row.pattern &&& zeroMask row.pattern = 0x0000#16 := by
  cases rb <;> decide

theorem opcodeOf_pattern_ne : ∀ row ∈ opcodeRows, opcodeOf row.pattern ≠ 0xF#4 := by
  decide

theorem exists_row_of_format : ∀ (op : BitVec 4) (l : Bool), op ≠ 0xF#4 →
    ∃ row ∈ opcodeRows, formatWord op false (decide (op = 0x0#4) && l) false false 0x00#8 = row.pattern := by
  decide

/-- Every assigned format has its row, and the unassigned opcode has none. -/
theorem exists_row_iff (w : Word) :
    (∃ row ∈ opcodeRows, w &&& formatMask w = row.pattern) ↔ opcodeOf w ≠ 0xF#4 := by
  constructor
  · rintro ⟨row, hrow, hpattern⟩
    rw [← opcodeOf_and_formatMask w w, hpattern]
    exact opcodeOf_pattern_ne row hrow
  · intro hop
    rw [and_formatMask]
    exact exists_row_of_format (opcodeOf w) (w.getLsbD 10) hop

/-- A row accepts the words of its format that have, under `fault`, no 1 in a fixed-zero bit. -/
theorem OpcodeRow.accepts_iff (rb : ReservedBits) (w : Word) {row : OpcodeRow} (hrow : row ∈ opcodeRows) :
    row.accepts rb w = true ↔ w &&& formatMask w = row.pattern ∧ (rb = .fault → w &&& zeroMask w = 0x0000#16) := by
  obtain ⟨hmask, hpattern, hdisjoint⟩ := opcodeRows_masks rb row hrow
  have hformat : w &&& formatMask row.pattern = row.pattern ↔ w &&& formatMask w = row.pattern := by
    constructor
    all_goals
      intro h
      have hop : opcodeOf w = opcodeOf row.pattern := by rw [← opcodeOf_and_formatMask w, h]
      simpa only [formatMask_congr hop] using h
  have hzeroMask (h : w &&& formatMask w = row.pattern) : zeroMask row.pattern = zeroMask w := by
    rw [← h, zeroMask_and_formatMask]
  rw [OpcodeRow.accepts, beq_iff_eq, hmask]
  cases rb with
  | ignore => simp [hformat]
  | fault =>
    rw [if_pos rfl, and_or_eq_iff hpattern hdisjoint, hformat]
    exact and_congr_right fun h => by simp [hzeroMask h]

/-- Beside the opcode a row of the table tests LD's bit L and, under `fault`, the fixed-zero bits (R59, R63). -/
theorem wellFormedWord_iff (rb : ReservedBits) (w : Word) :
    wellFormedWord rb w = true ↔ opcodeOf w ≠ 0xF#4 ∧ (rb = .fault → w &&& zeroMask w = 0x0000#16) := by
  rw [wellFormedWord, List.any_eq_true, ← exists_row_iff]
  constructor
  · rintro ⟨row, hrow, haccepts⟩
    obtain ⟨hpattern, hzero⟩ := (OpcodeRow.accepts_iff rb w hrow).mp haccepts
    exact ⟨⟨row, hrow, hpattern⟩, hzero⟩
  · rintro ⟨⟨row, hrow, hpattern⟩, hzero⟩
    exact ⟨row, hrow, (OpcodeRow.accepts_iff rb w hrow).mpr ⟨hpattern, hzero⟩⟩

/-- Settles O3: decoder and table both ask for an assigned opcode and, under `fault`, for no 1 in a fixed-zero bit. -/
theorem decoderAcceptsTable : Obligations.DecoderAcceptsTable := by
  intro rb w
  rw [exists_decodeWord_iff, wellFormedWord_iff]

end Sys2Proof
end

section
/-! PROOFS. Which faults a step can raise, and when (spec/60_exceptions.md R93 to R100). -/

namespace Sys2Proof.Machine

/-! ### The execute phase -/

/-- Settles O14: the execute phase is the guard over what the instruction reads. -/
theorem execCompletesExactly : Obligations.ExecCompletesExactly := by
  intro i s
  refine ⟨⟨?next, fun hread => ⟨_, exec_of_readable hread⟩⟩, fun hany => ⟨_, exec_anyValue hany i⟩, fun f hfault => ?fault⟩
  case next =>
    rintro ⟨t, hexec⟩
    exact (exec_eq_next_iff.mp hexec).1
  case fault =>
    rw [exec_eq_reading_executed] at hfault
    exact s.reading_eq_fault _ _ f hfault

theorem exec_ne_refused (i : Instr) (s : State) (r : Refusal) : exec i s ≠ .refused r := by
  rw [exec_eq_reading_executed]
  exact s.reading_ne_refused _ _ r

/-! ### The fetch phase -/

/-- Settles O12: the fetch looks at the mark of the code word before it decodes the word. -/
theorem unwrittenFetchFirst : Obligations.UnwrittenFetchFirst :=
  fun s hunwritten => step_of_stop s _ ((fetch_eq_stop s _).mpr (.inl ⟨hunwritten, rfl⟩))

/-- A fault that is no `UnwrittenRead` comes from the fetch phase: the execute phase raises none. -/
theorem step_eq_fault_iff_fetch {s : State} {f : Fault} (hf : ∀ item, f ≠ .unwrittenRead item) :
    step s = .fault f ↔ fetch s = .stop f := by
  refine ⟨fun h => ?_, step_of_stop s f⟩
  unfold step at h
  split at h
  case h_1 i t hfetch =>
    obtain ⟨item, -, -, hitem⟩ := (execCompletesExactly i t).2.2 f h
    exact absurd hitem (hf item)
  case h_2 g hfetch =>
    cases h
    exact hfetch

theorem step_eq_illegalOpcode_iff {s : State} {ir : Word} {a : Addr} :
    step s = .fault (.illegalOpcode ir a) ↔
      s.isUnwritten (.code s.pc) = false ∧ decodeWord s.cfg.reservedBits (s.codeRead s.pc) = .illegalOpcode ∧
        ir = s.codeRead s.pc ∧ a = s.pc := by
  rw [step_eq_fault_iff_fetch (by simp), fetch_eq_stop]
  simp

theorem step_eq_reservedEncoding_iff {s : State} {ir : Word} {a : Addr} :
    step s = .fault (.reservedEncoding ir a) ↔
      s.isUnwritten (.code s.pc) = false ∧ decodeWord s.cfg.reservedBits (s.codeRead s.pc) = .reservedEncoding ∧
        ir = s.codeRead s.pc ∧ a = s.pc := by
  rw [step_eq_fault_iff_fetch (by simp), fetch_eq_stop]
  simp

theorem decodeWord_eq_illegalOpcode_iff (rb : ReservedBits) (w : Word) :
    decodeWord rb w = .illegalOpcode ↔ opcodeOf w = 0xF#4 := by
  refine ⟨fun h => by_contra fun hop => ?_, fun hop => by rw [decodeWord, if_pos hop]⟩
  obtain ⟨i, hi⟩ := (exists_instrOf_iff w).mpr hop
  rw [decodeWord, if_neg hop, hi] at h
  split at h <;> cases h

/-- Settles O9: the decoder answers `illegalOpcode` for opcode 1111 alone. -/
theorem illegalOpcodeExactly : Obligations.IllegalOpcodeExactly := by
  intro s hread
  rw [step_eq_illegalOpcode_iff, decodeWord_eq_illegalOpcode_iff]
  simp only [hread, true_and, and_true]
  rfl

/-- R66's list of masks, as O10 writes it out for the assigned opcodes. -/
theorem zeroMask_eq_of_assigned {w : Word} (hop : opcodeOf w ≠ 0xF#4) :
    zeroMask w =
      if opcodeOf w = 0x0#4 then (if w.getLsbD 10 then 0x0100#16 else 0x0300#16)
      else if opcodeOf w ≤ 0x2#4 then 0x0700#16
      else if opcodeOf w = 0x3#4 then 0x0000#16
      else if opcodeOf w ≤ 0xC#4 then 0x0FFF#16
      else 0x08FF#16 := by
  unfold zeroMask
  generalize opcodeOf w = op at hop
  generalize w.getLsbD 10 = l
  revert op l
  decide

/-- Settles O10: the decoder answers `reservedEncoding` under `fault` for an assigned opcode and a 1 within its mask. -/
theorem reservedEncodingExactly : Obligations.ReservedEncodingExactly := by
  intro s hread
  rw [step_eq_reservedEncoding_iff, decodeWord_eq_reservedEncoding_iff]
  simp only [hread, true_and, and_true]
  constructor
  · rintro ⟨hop, hrb, hzero⟩
    rw [zeroMask_eq_of_assigned hop] at hzero
    exact ⟨hrb, hop, hzero⟩
  · rintro ⟨hrb, hop, hzero⟩
    refine ⟨hop, hrb, ?_⟩
    rw [zeroMask_eq_of_assigned hop]
    exact hzero

/-- Settles O11: both decoding faults carry the word and the address of the fetch, and `atFault` is the advanced state. -/
theorem faultNamesFetchedWord : Obligations.FaultNamesFetchedWord := by
  intro s f ir a hstep hf
  have hnames : ir = s.codeRead s.pc ∧ a = s.pc := by
    obtain rfl | rfl := hf
    · exact (step_eq_illegalOpcode_iff.mp hstep).2.2
    · exact (step_eq_reservedEncoding_iff.mp hstep).2.2
  obtain ⟨rfl, rfl⟩ := hnames
  exact ⟨rfl, rfl, by simp [State.atFault], rfl⟩

/-! ### No other fault -/

theorem step_ne_refused (s : State) (r : Refusal) : step s ≠ .refused r := by
  unfold step
  split
  case h_1 i t hfetch => exact exec_ne_refused i t r
  case h_2 f hfetch => simp

/-- Under `any_value` a step completes exactly when the word at PC decodes. -/
theorem exists_step_next_iff_of_anyValue {s : State} (hany : s.cfg.resetUnspec = .anyValue) :
    (∃ t, step s = .next t) ↔ ∃ i, decodeWord s.cfg.reservedBits (s.codeRead s.pc) = .ok i := by
  constructor
  · rintro ⟨t, hstep⟩
    obtain ⟨i, hdec, -⟩ := step_eq_next s t hstep
    exact ⟨i, hdec⟩
  · rintro ⟨i, hdec⟩
    have hany' : s.advance.cfg.resetUnspec = .anyValue := hany
    exact ⟨_, (step_of_decoded (s.isUnwritten_anyValue hany _) hdec).trans (exec_anyValue hany' i)⟩

theorem exists_step_fault_iff (s : State) : (∃ f, step s = .fault f) ↔ ¬ ∃ t, step s = .next t := by
  cases hstep : step s with
  | next t => simp
  | fault f => simp
  | refused r => exact absurd hstep (step_ne_refused s r)

/-- Settles O13: under `any_value` only the decoder can stop a step, and it accepts the opcode table's words (O3). -/
theorem stepFaultsOnlyOnBadWords : Obligations.StepFaultsOnlyOnBadWords := by
  refine fun s => ⟨step_ne_refused s, fun hany => ?_⟩
  rw [exists_step_fault_iff, exists_step_next_iff_of_anyValue hany, decoderAcceptsTable, Bool.not_eq_true]

end Sys2Proof.Machine
end

section
/-! PROOFS. Where a step leaves PC, the named branches, and the end of a run (spec/10_state.md R19; spec/30_encoding.md R69;
spec/42_br.md R77, R78; spec/70_reset_and_hazards.md R110). -/

namespace Sys2Proof.Machine

/-! ### PC after a step -/

/-- A BR leaves its target in PC if it is taken, and the PC of the fetch phase if not. -/
theorem State.executed_br_pc (s : State) (x z n c : Bool) (a : Addr) :
    (s.executed (.br x z n c a)).pc = if s.branchTaken x z n c then a else s.pc := by
  simp only [State.executed]
  split <;> rfl

/-- The fetch phase leaves the status bits that a branch tests. -/
theorem State.branchTaken_advance (s : State) (x z n c : Bool) : s.advance.branchTaken x z n c = s.branchTaken x z n c :=
  rfl

/-- Settles O8: every result but BR's has the PC of the fetch phase. -/
theorem pcAfterStep : Obligations.PcAfterStep := by
  intro s t i hstep hdec
  obtain ⟨j, hdec', -, -, rfl⟩ := step_next_executed hstep
  obtain rfl : i = j := by simpa [hdec] using hdec'
  constructor
  · rintro x z n c a rfl
    rw [State.executed_br_pc, State.branchTaken_advance, State.advance_pc]
  · intro hbr
    rw [State.executed_pc_of_ne_br _ hbr, State.advance_pc]

/-! ### The named branches -/

/-- A BR's word, for any select bits, decodes and branches exactly when its condition holds. -/
theorem exec_br_word {s : State} (hany : s.cfg.resetUnspec = .anyValue) (x z n c : Bool) (a : Addr) {w : Word}
    (hw : w = 0x3000#16 ||| (if x then 0x0800#16 else 0#16) ||| (if z then 0x0400#16 else 0#16) |||
      (if n then 0x0200#16 else 0#16) ||| (if c then 0x0100#16 else 0#16)) {cond : Bool}
    (hcond : cond = s.branchTaken x z n c) :
    ∃ i, decodeWord .fault (w ||| a.zeroExtend 16) = .ok i ∧
      exec i s = .next { s with pc := if cond then a else s.pc } := by
  subst hw hcond
  exact ⟨.br x z n c a, brBranches.1 .fault x z n c a, exec_br_of_readable (s.readable_anyValue hany _) a⟩

/-- Settles O26: each row is a BR with its own select bits, whose condition R77 reduces to the row's. -/
theorem namedBranches : Obligations.NamedBranches := by
  intro a s hany w cond hrow
  simp only [List.mem_cons, Prod.mk.injEq, List.not_mem_nil, or_false] at hrow
  obtain ⟨rfl, rfl⟩ | ⟨rfl, rfl⟩ | ⟨rfl, rfl⟩ | ⟨rfl, rfl⟩ | ⟨rfl, rfl⟩ | ⟨rfl, rfl⟩ | ⟨rfl, rfl⟩ | ⟨rfl, rfl⟩ | ⟨rfl, rfl⟩ :=
    hrow
  · exact exec_br_word hany false false false false a rfl rfl
  · exact exec_br_word hany true true true true a rfl rfl
  · exact exec_br_word hany false true false false a rfl (by simp [State.branchTaken, branchAlways, flagMeets])
  · exact exec_br_word hany false false true false a rfl (by simp [State.branchTaken, branchAlways, flagMeets])
  · exact exec_br_word hany false false false true a rfl (by simp [State.branchTaken, branchAlways, flagMeets])
  · exact exec_br_word hany true true false false a rfl (by simp [State.branchTaken, branchAlways, flagMeets])
  · exact exec_br_word hany true false true false a rfl (by simp [State.branchTaken, branchAlways, flagMeets])
  · exact exec_br_word hany true false false true a rfl (by simp [State.branchTaken, branchAlways, flagMeets])
  · exact exec_br_word hany true false false false a rfl rfl

/-! ### The end of a run -/

theorem State.nextInstr_eq_some_iff {s : State} {i : Instr} :
    s.nextInstr = some i ↔ decodeWord s.cfg.reservedBits (s.codeRead s.pc) = .ok i := by
  unfold State.nextInstr
  cases decodeWord s.cfg.reservedBits (s.codeRead s.pc) <;> simp [DecodeResult.toOption]

/-- An unconditional BR to `a` reads no status bit and writes `a` to PC (R69, R97). -/
theorem exec_of_isUnconditionalTo {a : Addr} {i : Instr} (h : isUnconditionalTo a i = true) (s : State) :
    exec i s = .next (s.setPc a) := by
  have hform : i = .br false false false false a ∨ i = .br true true true true a := by
    simpa [isUnconditionalTo] using h
  obtain rfl | rfl := hform
  · rfl
  · rfl

/-- Settles O48: the branch puts back the PC that the fetch phase had advanced. -/
theorem selfBranchIsFixedPoint : Obligations.SelfBranchIsFixedPoint := by
  intro s hread hself
  unfold State.selfBranch at hself
  cases hnext : s.nextInstr with
  | none => simp [hnext] at hself
  | some i =>
    rw [hnext, Option.any_some] at hself
    have hdec : decodeWord s.cfg.reservedBits (s.codeRead s.pc) = .ok i := State.nextInstr_eq_some_iff.mp hnext
    rw [step_of_decoded hread hdec, exec_of_isUnconditionalTo hself]
    rfl

theorem addr_add_one_ne (a : Addr) : a + 1 ≠ a := by
  bv_omega

/-- Settles O49: a step leaves PC where it was only by a branch there, since the fetch phase moves it. -/
theorem fixedPointIsBranchToItself : Obligations.FixedPointIsBranchToItself := by
  intro s hstep
  obtain ⟨i, hdec, -⟩ := step_next_executed hstep
  obtain ⟨hbr, hother⟩ := pcAfterStep s s i hstep hdec
  cases i with
  | br x z n c a =>
    have hpc : s.pc = if s.branchTaken x z n c then a else s.pc + 1 := hbr x z n c a rfl
    cases htaken : s.branchTaken x z n c with
    | true =>
      rw [htaken, if_pos rfl] at hpc
      exact ⟨x, z, n, c, State.nextInstr_eq_some_iff.mpr (hpc ▸ hdec), htaken⟩
    | false =>
      rw [htaken, if_neg Bool.false_ne_true] at hpc
      exact absurd hpc.symm (addr_add_one_ne s.pc)
  | _ => exact absurd (hother fun _ _ _ _ _ => Instr.noConfusion).symm (addr_add_one_ne s.pc)

end Sys2Proof.Machine
end

section
/-! PROOFS. Loads, stores and what they leave unchanged (spec/40_ld_st.md R73 to R75; spec/20_memory.md sections 2 and 5). -/

namespace Sys2Proof.Machine

/-! ### LD, direct form -/

theorem State.setReg_frame (s : State) (r : Reg) (v : Word) :
    s.setReg r v = { s with ra := (s.setReg r v).ra, rb := (s.setReg r v).rb, unwritten := (s.setReg r v).unwritten } := by
  apply State.eq_of_fields <;> simp

/-- Settles O16: LD direct writes the data word to the selected register alone. -/
theorem ldDirectLoadsWord : Obligations.LdDirectLoadsWord := by
  intro r d s hread
  refine ⟨s.setReg r (s.memRead d), (exec_ldDirect_next r d s _).mpr ⟨hread, rfl⟩, ?_, fun q hq => ?_, s.setReg_frame r _⟩
  · rw [State.reg_setReg, if_pos rfl]
  · rw [State.reg_setReg, if_neg hq]

/-! ### LD, immediate form -/

/-- What is kept of the old value's high byte, in its place. -/
theorem keptByte_highByte_shift (other : LdImmOtherByte) (old : Word) :
    (keptByte other (highByte old)).zeroExtend 16 <<< 8 = if other = .preserve then old &&& 0xFF00#16 else 0x0000#16 := by
  cases other with
  | preserve => exact zeroExtend_highByte_shift old
  | zero => rfl

/-- What is kept of the old value's low byte, in its place. -/
theorem keptByte_lowByte (other : LdImmOtherByte) (old : Word) :
    (keptByte other (lowByte old)).zeroExtend 16 = if other = .preserve then old &&& 0x00FF#16 else 0x0000#16 := by
  cases other with
  | preserve => exact zeroExtend_lowByte old
  | zero => rfl

/-- The loaded register with masks in place of bytes (R74). -/
theorem loadByte_eq_or (other : LdImmOtherByte) (b : ByteSel) (old : Word) (d : Byte) :
    loadByte other b old d =
      if b = .low then (if other = .preserve then old &&& 0xFF00#16 else 0x0000#16) ||| d.zeroExtend 16
      else d.zeroExtend 16 <<< 8 ||| (if other = .preserve then old &&& 0x00FF#16 else 0x0000#16) := by
  cases b with
  | low => rw [loadByte, joinBytes_eq_or, keptByte_highByte_shift, if_pos rfl]
  | high => rw [loadByte, joinBytes_eq_or, keptByte_lowByte, if_neg (show ByteSel.high ≠ .low by decide)]

theorem State.reg_executed_ldImm (s : State) (r q : Reg) (b : ByteSel) (d : Byte) :
    (s.executed (.ldImm r b d)).reg q = if q = r then loadByte s.cfg.ldImmOtherByte b (s.reg r) d else s.reg q := by
  rw [State.executed, State.reg_markWritten, State.reg_putReg]

/-- Settles O17: LD immediate reads nothing through the guard and writes its joined bytes to the selected register alone. -/
theorem ldImmLoadsByte : Obligations.LdImmLoadsByte := by
  intro r b d s
  refine ⟨s.executed (.ldImm r b d), exec_of_readable s.readable_nil, ?_, fun q hq => ?_, ?frame⟩
  · rw [State.reg_executed_ldImm, if_pos rfl, loadByte_eq_or]
  · rw [State.reg_executed_ldImm, if_neg hq]
  case frame => apply State.eq_of_fields <;> simp [State.executed]

theorem State.reg_eq_of_bytes {s : State} {r : Reg} {v : Word} (hlow : s.byteOf r .low = lowByte v)
    (hhigh : s.byteOf r .high = highByte v) : s.reg r = v := by
  calc s.reg r = joinBytes (s.byteOf r .high) (s.byteOf r .low) := (joinBytes_bytes _).symm
    _ = joinBytes (highByte v) (lowByte v) := by rw [hlow, hhigh]
    _ = v := joinBytes_bytes v

/-- Settles O23: each load writes its own byte, and under `preserve` the second keeps the byte of the first. -/
theorem twoByteLoadsBuildConstant : Obligations.TwoByteLoadsBuildConstant := by
  intro r v s t u hpreserve
  constructor
  all_goals
    intro ht hu
    obtain ⟨-, rfl⟩ := exec_eq_next_iff.mp ht
    obtain ⟨-, rfl⟩ := exec_eq_next_iff.mp hu
    apply State.reg_eq_of_bytes <;>
      simp [State.byteOf_executed_ldImm, hpreserve, keptByte, lowByte, highByte]

/-! ### ST -/

/-- Settles O18: ST writes the two bytes of one data word and nothing else but that word's mark. -/
theorem stStoresWord : Obligations.StStoresWord := by
  intro r a s hread
  refine ⟨s.memWrite a (s.reg r), (exec_st_next r a s _).mpr ⟨hread, rfl⟩, ?_, fun b hb => ?_, fun p hlow hhigh => ?_, rfl⟩
  · rw [State.memRead_memWrite, if_pos rfl]
  · rw [State.memRead_memWrite, if_neg hb]
  · rw [State.memWrite_mem, Memory.readByte_writeWord, if_neg hhigh, if_neg hlow]

/-- Settles O20: the load reads the memory that the store left. -/
theorem loadSeesLatestStore : Obligations.LoadSeesLatestStore := by
  intro r q a b s t u hst hld
  obtain ⟨-, rfl⟩ := (exec_st_next r a s t).mp hst
  obtain ⟨-, rfl⟩ := (exec_ldDirect_next q b _ u).mp hld
  rw [State.reg_setReg, if_pos rfl, State.memRead_memWrite]

/-- Settles O21: under `princeton` a code word is a data word, before and after the store. -/
theorem princetonFetchSeesStore : Obligations.PrincetonFetchSeesStore := by
  intro r a b s t hprinceton hst
  obtain ⟨-, rfl⟩ := (exec_st_next r a s t).mp hst
  rw [s.codeRead_princeton hprinceton, (s.memWrite a _).codeRead_princeton hprinceton, State.memRead_memWrite]

/-! ### The status bits -/

/-- Settles O40: the results of these instructions set no status bit. -/
theorem statusBitsKept : Obligations.StatusBitsKept := by
  intro i s t hexec hi
  obtain ⟨-, rfl⟩ := exec_eq_next_iff.mp hexec
  obtain ⟨r, d, rfl⟩ | ⟨r, b, d, rfl⟩ | ⟨r, a, rfl⟩ | ⟨x, z, n, c, a, rfl⟩ | rfl | rfl := hi
  · simp [State.executed]
  · simp [State.executed]
  · exact ⟨rfl, rfl, rfl⟩
  · simp only [State.executed]
    split <;> exact ⟨rfl, rfl, rfl⟩
  · exact ⟨rfl, rfl, rfl⟩
  · exact ⟨rfl, rfl, rfl⟩

end Sys2Proof.Machine
end

section
/-! PROOFS. Arithmetic and the carry: INC, SUB, CMP, SHR and the shift-left idiom (spec/41_inc.md R76; spec/43_alu.md R81, R85,
R86; spec/45_cmp_set_clr.md R89; spec/10_state.md R25 to R30). -/

namespace Sys2Proof.Machine

/-! ### The carry -/

/-- Settles O29: the sign bits are bits 15, and Table 1 on them is the carry out. -/
theorem carryTableIsCarryOut : Obligations.CarryTableIsCarryOut :=
  fun _ _ _ _ hr => table1_signBit_iff_carryOut hr

/-- Subtraction is addition of the complement with a carry-in (R29, R81). -/
theorem sub_eq_add_not_carryIn (a b : Word) : a - b = BitVec.ofNat 16 (a.toNat + (~~~b).toNat + true.toNat) := by
  apply BitVec.eq_of_toNat_eq
  simp only [BitVec.toNat_sub, BitVec.toNat_ofNat, BitVec.toNat_not, Bool.toNat_true]
  have := b.isLt
  omega

theorem subCarryOf_notBorrow_iff (a b : Word) :
    subCarryOf .notBorrow a b (a - b) = true ↔ b.toNat ≤ a.toNat := by
  have hcarry : subCarryOf .notBorrow a b (a - b) = true ↔ 2 ^ 16 ≤ a.toNat + (~~~b).toNat + true.toNat :=
    table1_signBit_iff_carryOut (sub_eq_add_not_carryIn a b)
  have hb := b.isLt
  rw [hcarry, BitVec.toNat_not, Bool.toNat_true]
  omega

theorem subCarryOf_borrow_iff (a b : Word) : subCarryOf .borrow a b (a - b) = true ↔ a.toNat < b.toNat := by
  have hnot : subCarryOf .borrow a b (a - b) = !subCarryOf .notBorrow a b (a - b) := rfl
  rw [hnot, Bool.not_eq_true', ← Bool.not_eq_true, subCarryOf_notBorrow_iff, Nat.not_le]

/-- What SUB and CMP write to C for each value of `SUB_CARRY` (R29). -/
theorem subCarryOf_spec (k : SubCarry) (a b : Word) :
    (k = .notBorrow → (subCarryOf k a b (a - b) = true ↔ b.toNat ≤ a.toNat)) ∧
      (k = .borrow → (subCarryOf k a b (a - b) = true ↔ a.toNat < b.toNat)) ∧
      (k = .table1Literal → subCarryOf k a b (a - b) = table1 (signBit a) (signBit b) (signBit (a - b))) := by
  refine ⟨?_, ?_, ?_⟩
  · rintro rfl
    exact subCarryOf_notBorrow_iff a b
  · rintro rfl
    exact subCarryOf_borrow_iff a b
  · rintro rfl
    rfl

theorem zeroOf_sub_iff (a b : Word) : zeroOf (a - b) = true ↔ a = b := by
  rw [zeroOf_eq_true]
  exact sub_eq_zero

/-! ### INC -/

@[simp] theorem State.reg_setResultFlags (s : State) (r : Word) (c : Bool) (q : Reg) :
    (s.setResultFlags r c).reg q = s.reg q := by
  cases q <;> rfl

theorem incOperand_eq_ite (ext : IncImmExt) (v : Byte) :
    incOperand ext v = if ext = .zero then v.zeroExtend 16 else v.signExtend 16 := by
  cases ext <;> rfl

/-- Settles O24: INC is the 16-bit sum of a register and the extended value, with that sum's status bits. -/
theorem incAddsValue : Obligations.IncAddsValue := by
  intro r v s hread
  refine ⟨_, incOperand s.cfg.incImmExt v, (exec_inc_next r v s _).mpr ⟨hread, rfl⟩, incOperand_eq_ite _ v, ?_⟩
  simp only [State.reg_setResultFlags, State.reg_setReg, if_true]
  refine ⟨BitVec.toNat_add _ _, zeroOf_iff_toNat_eq_zero _, rfl, addCarry_iff_carryOut _ _, fun q hq => if_neg hq, ?frame⟩
  case frame => apply State.eq_of_fields <;> simp

/-! ### SUB and CMP -/

/-- Settles O30: SUB writes the difference to RA, and its carry is `SUB_CARRY`'s. -/
theorem subSubtracts : Obligations.SubSubtracts := by
  intro s hread
  obtain ⟨hnotBorrow, hborrow, htable⟩ := subCarryOf_spec s.cfg.subCarry s.ra s.rb
  refine ⟨_, (exec_sub_next s _).mpr ⟨hread, rfl⟩, ?difference, zeroOf_sub_iff s.ra s.rb, rfl, hnotBorrow, hborrow, htable,
    State.setReg_ra_setResultFlags_frame rfl⟩
  case difference =>
    have hb := s.rb.isLt
    simp only [State.setResultFlags_ra, State.setReg_ra_ra, BitVec.toNat_sub]
    omega

/-- Settles O31: CMP writes the status bits of SUB's result and leaves the registers. -/
theorem cmpCompares : Obligations.CmpCompares := by
  intro s hread
  obtain ⟨hnotBorrow, hborrow, htable⟩ := subCarryOf_spec s.cfg.subCarry s.ra s.rb
  exact ⟨_, (exec_cmp_next s _).mpr ⟨hread, rfl⟩, zeroOf_sub_iff s.ra s.rb, rfl, hnotBorrow, hborrow, htable, rfl⟩

/-- Settles O32: SUB finds the registers and the parameters as CMP did, and both write the status bits of the difference. -/
theorem cmpThenSubAgree : Obligations.CmpThenSubAgree := by
  intro s t u hcmp hsub
  obtain ⟨-, rfl⟩ := (exec_cmp_next s t).mp hcmp
  obtain ⟨-, rfl⟩ := (exec_sub_next _ u).mp hsub
  simp

/-! ### SHR -/

/-- Settles O34: RA becomes RA >>> 1, and `setShrZN` keeps Z and N or describes the result. -/
theorem shrShifts : Obligations.ShrShifts := by
  intro s hread
  refine ⟨_, (exec_shr_next s _).mpr ⟨hread, rfl⟩, fun k hk => ?_, ?_, ?_, fun hkeep => ?_, fun hresult => ?_, ?frame⟩
  · simp [Nat.add_comm]
  · simp
  · simp
  · simp [hkeep]
  · refine ⟨?_, by simp [hresult]⟩
    have hz : zeroOf (s.ra >>> 1) = true ↔ (s.ra >>> 1).toNat = 0 := zeroOf_iff_toNat_eq_zero _
    simpa [hresult, -zeroOf_eq_true] using hz
  case frame => apply State.eq_of_fields <;> simp

/-! ### The shift-left idiom -/

theorem table1_self (a r : Bool) : table1 a a r = a := by
  cases a <;> cases r <;> rfl

theorem add_self_eq_shiftLeft (w : Word) : w + w = w <<< 1 := by
  apply BitVec.eq_of_toNat_eq
  rw [BitVec.toNat_add, BitVec.toNat_shiftLeft, Nat.shiftLeft_eq]
  omega

theorem getLsbD_shiftLeft_one_succ (w : Word) {k : Nat} (hk : k < 15) : (w <<< 1).getLsbD (k + 1) = w.getLsbD k := by
  have hbound : k + 1 < 16 := by omega
  simp only [BitVec.getLsbD_shiftLeft, hbound, Nat.add_sub_cancel]
  simp

/-- What is shifted left is 0 exactly when every bit but the top one is 0. -/
theorem zeroOf_shiftLeft_iff (w : Word) : zeroOf (w <<< 1) = true ↔ ∀ k, k < 15 → w.getLsbD k = false := by
  rw [zeroOf_iff_bits_false]
  constructor
  · intro h k hk
    exact (getLsbD_shiftLeft_one_succ w hk).symm.trans (h (k + 1) (by omega))
  · intro h k hk
    cases k with
    | zero => simp
    | succ k =>
      have hk' : k < 15 := by omega
      exact (getLsbD_shiftLeft_one_succ w hk').trans (h k hk')

/-- Settles O35: after MOV both operands of ADD are the old RA, so the sum is a shift and Table 1 gives their common sign bit. -/
theorem shiftLeftIdiom : Obligations.ShiftLeftIdiom := by
  intro s t u hmov hadd
  obtain ⟨-, rfl⟩ := (exec_mov_next s t).mp hmov
  obtain ⟨-, rfl⟩ := (exec_add_next _ u).mp hadd
  simp only [State.setResultFlags_ra, State.setResultFlags_rb, State.setResultFlags_z, State.setResultFlags_n,
    State.setResultFlags_c, State.setReg_ra_ra, State.setReg_ra_rb, State.setReg_rb_ra, State.setReg_rb_rb,
    add_self_eq_shiftLeft, true_and]
  exact ⟨table1_self _ _, getLsbD_shiftLeft_one_succ s.ra (by decide), zeroOf_shiftLeft_iff s.ra⟩

end Sys2Proof.Machine
end

section
/-! PROOFS. The launch: memory holds the image, the marks are what it does not name, the invariant holds, and launches that
differ only in what is not named agree (spec/20_memory.md R52; spec/60_exceptions.md R97; spec/92_eei_decisions.md D10, D20). -/

namespace Sys2Proof.Machine

/-! ### Memory at launch -/

namespace LaunchImage

variable (img : LaunchImage) (org : MemOrg)

theorem readWord_place (m : Memory) (k key : Nat) :
    (img.place org m k).readWord key =
      if key = k then (img.word org key).getD (m.readWord key) else m.readWord key := by
  unfold place
  cases hword : img.word org k with
  | none =>
    dsimp only
    split
    case isTrue hkey => rw [hkey, hword, Option.getD_none]
    case isFalse => rfl
  | some w =>
    dsimp only
    rw [Memory.readWord_writeWord]
    split
    case isTrue hkey => rw [hkey, hword, Option.getD_some]
    case isFalse => rfl

/-- Placing the words of some keys, one after another, places each named one and leaves the rest. -/
theorem readWord_foldl_place (keys : List Nat) (m : Memory) (key : Nat) :
    Memory.readWord (keys.foldl (img.place org) m) key =
      if key ∈ keys then (img.word org key).getD (m.readWord key) else m.readWord key := by
  induction keys generalizing m with
  | nil => simp
  | cons k keys ih =>
    rw [List.foldl_cons, ih, readWord_place]
    by_cases hk : key = k
    · cases img.word org key <;> simp [hk]
    · simp [hk]

theorem readWord_memory (key : Nat) :
    (img.memory org).readWord key =
      if key < storageWords org then (img.word org key).getD (Memory.readWord [] key) else Memory.readWord [] key := by
  rw [memory, readWord_foldl_place]
  simp only [List.mem_range]

/-- A named word within storage is in memory at launch. -/
theorem readWord_memory_of_named {key : Nat} {w : Word} (hkey : key < storageWords org) (hword : img.word org key = some w) :
    (img.memory org).readWord key = w := by
  rw [readWord_memory, if_pos hkey, hword, Option.getD_some]

/-- Placing a word within bounds keeps storage canonical and within bounds. -/
theorem memory_canonical : (img.memory org).wf = true ∧ (img.memory org).below (2 * storageWords org) = true := by
  unfold memory
  refine List.foldlRecOn (motive := fun m : Memory => m.wf = true ∧ m.below (2 * storageWords org) = true) _ _
    ⟨Memory.wf_nil, Memory.below_nil _⟩ ?_
  rintro m ⟨hwf, hbelow⟩ key hkey
  unfold place
  cases img.word org key with
  | none => exact ⟨hwf, hbelow⟩
  | some w =>
    exact ⟨Memory.writeWord_wf m key w hwf, Memory.writeWord_below m key w _ hbelow (List.mem_range.mp hkey)⟩

theorem word_empty (key : Nat) : LaunchImage.empty.word org key = none := by
  unfold word
  split
  · rfl
  · cases org <;> rfl

theorem memory_empty : LaunchImage.empty.memory org = [] := by
  unfold memory
  refine List.foldlRecOn (motive := fun m : Memory => m = []) _ _ rfl ?_
  rintro m rfl key -
  rw [place, word_empty]

/-- The image's code words stand first in storage. -/
theorem word_codeKey (s : State) (a : Addr) : img.word org (s.codeKey a) = img.code a := by
  have ha : a.toNat < Config.codeWords := a.isLt
  unfold word State.codeKey
  rw [if_pos ha, BitVec.ofNat_toNat, BitVec.setWidth_eq]

/-- Under `harvard` its data words stand after them. -/
theorem word_dataKey_harvard {s : State} (hharvard : s.cfg.memOrg = .harvard) (a : Addr) :
    img.word .harvard (s.dataKey a) = img.data a := by
  simp [word, State.dataKey, hharvard]

/-! ### Marks at launch -/

theorem mem_marks_iff (cfg : Config) (m : Mark) :
    m ∈ img.marks cfg ↔ cfg.resetUnspec = .readFaults ∧ m ∈ allMarks cfg.memOrg ∧ img.names cfg.memOrg m = false := by
  unfold marks
  cases cfg.resetUnspec <;> simp

theorem marks_sublist (cfg : Config) : (img.marks cfg).Sublist (allMarks cfg.memOrg) := by
  unfold marks
  cases cfg.resetUnspec with
  | anyValue => exact List.nil_sublist _
  | readFaults => exact List.filter_sublist

theorem marks_anyValue {cfg : Config} (hany : cfg.resetUnspec = .anyValue) : img.marks cfg = [] := by
  rw [marks, hany]

end LaunchImage

theorem word_mem_allMarks_iff (org : MemOrg) (key : Nat) : .word key ∈ allMarks org ↔ key < storageWords org := by
  simp [allMarks]

theorem byte_mem_allMarks (org : MemOrg) (r : Reg) (b : ByteSel) : .byte r b ∈ allMarks org := by
  cases r <;> cases b <;> simp [allMarks]

theorem flag_mem_allMarks (org : MemOrg) (f : Flag) : .flag f ∈ allMarks org := by
  cases f <;> simp [allMarks]

/-! ### The launch state -/

@[simp] theorem State.launch_mem (cfg : Config) (img : LaunchImage) (ra rb : Word) (z n c : Bool) :
    (State.launch cfg img ra rb z n c).mem = img.memory cfg.memOrg := rfl

@[simp] theorem State.launch_unwritten (cfg : Config) (img : LaunchImage) (ra rb : Word) (z n c : Bool) :
    (State.launch cfg img ra rb z n c).unwritten = img.marks cfg := rfl

theorem State.launch_marked_word_of_named {cfg : Config} {img : LaunchImage} {key : Nat} {w : Word}
    (hword : img.word cfg.memOrg key = some w) (ra rb : Word) (z n c : Bool) :
    (State.launch cfg img ra rb z n c).marked (.word key) = false := by
  have hmarks : .word key ∉ img.marks cfg := by simp [LaunchImage.mem_marks_iff, LaunchImage.names, hword]
  exact Bool.eq_false_iff.mpr fun h => hmarks ((State.marked_eq_true _ _).mp h).2

/-- Settles O42: a named word is placed at its key, which lies within storage, and it gets no mark. -/
theorem launchHoldsImage : Obligations.LaunchHoldsImage := by
  intro cfg img ra rb z n c a w
  have hread {key : Nat} (hkey : key < storageWords cfg.memOrg) (hword : img.word cfg.memOrg key = some w) :
      (State.launch cfg img ra rb z n c).mem.readWord key = w := img.readWord_memory_of_named _ hkey hword
  constructor
  · intro hcode
    have hword : img.word cfg.memOrg ((State.launch cfg img ra rb z n c).codeKey a) = some w := by
      rw [LaunchImage.word_codeKey, hcode]
    refine ⟨hread (State.codeKey_lt _ a) hword, ?_⟩
    simp [State.isUnwritten, State.marksOf, State.launch_marked_word_of_named hword]
  · intro hharvard hdata
    have hword : img.word cfg.memOrg ((State.launch cfg img ra rb z n c).dataKey a) = some w := by
      rw [hharvard, LaunchImage.word_dataKey_harvard img hharvard, hdata]
    refine ⟨hread (State.dataKey_lt _ a) hword, ?_⟩
    simp [State.isUnwritten, State.marksOf, State.launch_marked_word_of_named hword]

/-- Settles O43: an image that names nothing leaves memory empty, and `any_value` has no marks. -/
theorem resetIsALaunch : Obligations.ResetIsALaunch := by
  apply State.eq_of_fields
  case hmem => rw [State.launch_mem, LaunchImage.memory_empty, State.reset]
  all_goals rfl

/-- Settles O44: the image is placed word by word within bounds, and the marks are some of all in their order. -/
theorem launchMeetsInv : Obligations.LaunchMeetsInv := by
  intro cfg img ra rb z n c
  obtain ⟨hwf, hbelow⟩ := img.memory_canonical cfg.memOrg
  exact ⟨hwf, hbelow, img.marks_sublist cfg, fun hany => img.marks_anyValue hany⟩

/-! ### Launches that agree -/

/-- An image that names more words than another gives those the other names the same value. -/
theorem LaunchImage.word_of_extends {img img' : LaunchImage} (hcode : ∀ a w, img.code a = some w → img'.code a = some w)
    (hdata : ∀ a w, img.data a = some w → img'.data a = some w) {org : MemOrg} {key : Nat} {w : Word}
    (hword : img.word org key = some w) : img'.word org key = some w := by
  unfold LaunchImage.word at hword ⊢
  split
  case isTrue hkey =>
    rw [if_pos hkey] at hword
    exact hcode _ w hword
  case isFalse hkey =>
    rw [if_neg hkey] at hword
    cases org with
    | harvard => exact hdata _ w hword
    | princeton => cases hword

/-- Settles O51: under `read_faults` all but the named words is marked, and the named ones hold the same word in both launches. -/
theorem launchesAgree : Obligations.LaunchesAgree := by
  intro cfg img img' ra rb ra' rb' z n c z' n' c' hcode hdata
  refine ⟨rfl, rfl, rfl, fun r b hm => ?bytes, fun f hm => ?flags, fun key hm => ?words⟩
  all_goals rw [State.launch_unwritten, LaunchImage.mem_marks_iff] at hm
  case bytes => exact absurd ⟨rfl, byte_mem_allMarks _ r b, rfl⟩ hm
  case flags => exact absurd ⟨rfl, flag_mem_allMarks _ f, rfl⟩ hm
  case words =>
    rw [State.launch_mem, State.launch_mem]
    by_cases hkey : key < storageWords cfg.memOrg
    · cases hword : img.word cfg.memOrg key with
      | some w =>
        rw [img.readWord_memory_of_named _ hkey hword,
          img'.readWord_memory_of_named _ hkey (LaunchImage.word_of_extends hcode hdata hword)]
      | none =>
        have hnames : img.names cfg.memOrg (.word key) = false := by rw [LaunchImage.names, hword, Option.isSome_none]
        exact absurd ⟨rfl, (word_mem_allMarks_iff _ key).mpr hkey, hnames⟩ hm
    · rw [LaunchImage.readWord_memory, LaunchImage.readWord_memory, if_neg hkey, if_neg hkey]

end Sys2Proof.Machine
end
